-- ==== Sys2Proof/Word.lean ====
section
/-! DEFINITION. The machine's words: 8-bit bytes and registers, 16-bit `I`, `PC`, call-stack entries and
instruction words (R5, R10). Every value is unsigned (R10). -/

namespace Sys2Proof

/-- A memory byte or the value of a general register: `XLEN` = 8 bits (R5, R20). -/
abbrev Byte := BitVec 8

/-- The value of `I`, `PC`, a call-stack entry, or an instruction word: 16 bits (R5, R22, R23, R25, R90). -/
abbrev Word := BitVec 16

/-- A general register's number, one hexadecimal digit; every one of the 16 is legal (R20, R91, R93). -/
abbrev RegNo := BitVec 4

/-- A 12-bit address field NNN (R91, R93). -/
abbrev Addr12 := BitVec 12

end Sys2Proof
end

