-- ==== Sys2Proof/Syntax.lean ====
section
/-! DEFINITION. The instruction set: one constructor per row of spec/opcode_table.json, named after the row's
pattern (R95, R99). Operand types hold exactly the field values of R91: register numbers X, Y and the row
count N are 4 bits, NN is 8 bits, NNN is 12 bits, and every value of each is legal (R93). -/

namespace Sys2Proof

/-- The 34 instructions of R95. -/
inductive Instr where
  /-- 00E0 `CLS`: clear the pixel buffer (R191) -/
  | op00E0
  /-- 00EE `RET`: return from subroutine (R123) -/
  | op00EE
  /-- 1NNN `JP NNN`: jump (R124) -/
  | op1NNN (nnn : Addr12)
  /-- 2NNN `CALL NNN`: call subroutine (R125) -/
  | op2NNN (nnn : Addr12)
  /-- 3XNN `SE VX, NN`: skip if equal to the immediate (R126) -/
  | op3XNN (x : RegNo) (nn : Byte)
  /-- 4XNN `SNE VX, NN`: skip if different from the immediate (R127) -/
  | op4XNN (x : RegNo) (nn : Byte)
  /-- 5XY0 `SE VX, VY`: skip if the registers are equal (R128) -/
  | op5XY0 (x y : RegNo)
  /-- 6XNN `LD VX, NN`: load immediate (R142) -/
  | op6XNN (x : RegNo) (nn : Byte)
  /-- 7XNN `ADD VX, NN`: add immediate, no flag (R143) -/
  | op7XNN (x : RegNo) (nn : Byte)
  /-- 8XY0 `LD VX, VY`: register move (R144) -/
  | op8XY0 (x y : RegNo)
  /-- 8XY1 `OR VX, VY` (R145) -/
  | op8XY1 (x y : RegNo)
  /-- 8XY2 `AND VX, VY` (R146) -/
  | op8XY2 (x y : RegNo)
  /-- 8XY3 `XOR VX, VY` (R147) -/
  | op8XY3 (x y : RegNo)
  /-- 8XY4 `ADD VX, VY`: add with carry flag (R148) -/
  | op8XY4 (x y : RegNo)
  /-- 8XY5 `SUB VX, VY`: VX - VY, flag VX > VY (R149) -/
  | op8XY5 (x y : RegNo)
  /-- 8XY6 `SHR VX, VY`: shift right by one (R151) -/
  | op8XY6 (x y : RegNo)
  /-- 8XY7 `SUBN VX, VY`: VY - VX, flag VY > VX (R150) -/
  | op8XY7 (x y : RegNo)
  /-- 8XYE `SHL VX, VY`: shift left by one (R153) -/
  | op8XYE (x y : RegNo)
  /-- 9XY0 `SNE VX, VY`: skip if the registers differ (R129) -/
  | op9XY0 (x y : RegNo)
  /-- ANNN `LD I, NNN`: load index immediate (R170) -/
  | opANNN (nnn : Addr12)
  /-- BNNN `JP V0, NNN`: jump to an address plus a register (R130) -/
  | opBNNN (nnn : Addr12)
  /-- CXNN `RND VX, NN`: masked random byte (R154) -/
  | opCXNN (x : RegNo) (nn : Byte)
  /-- DXYN `DRW VX, VY, N`: draw a sprite (R192) -/
  | opDXYN (x y : RegNo) (n : BitVec 4)
  /-- EX9E `SKP VX`: skip if key down (R200) -/
  | opEX9E (x : RegNo)
  /-- EXA1 `SKNP VX`: skip if key not down (R201) -/
  | opEXA1 (x : RegNo)
  /-- FX07 `LD VX, DT`: read the delay timer (R203) -/
  | opFX07 (x : RegNo)
  /-- FX0A `LD VX, K`: wait for a key by busy polling (R202) -/
  | opFX0A (x : RegNo)
  /-- FX15 `LD DT, VX`: set the delay timer (R204) -/
  | opFX15 (x : RegNo)
  /-- FX18 `LD ST, VX`: set the sound timer (R205) -/
  | opFX18 (x : RegNo)
  /-- FX1E `ADD I, VX`: add register to index (R171) -/
  | opFX1E (x : RegNo)
  /-- FX29 `LD F, VX`: index of a font glyph (R172) -/
  | opFX29 (x : RegNo)
  /-- FX33 `LD B, VX`: store the decimal digits (R173) -/
  | opFX33 (x : RegNo)
  /-- FX55 `LD [I], VX`: store V0 to VX (R174) -/
  | opFX55 (x : RegNo)
  /-- FX65 `LD VX, [I]`: load V0 to VX (R175) -/
  | opFX65 (x : RegNo)
  deriving DecidableEq, Repr

end Sys2Proof
end

