-- ==== Sys2Proof/WellFormed.lean ====
section
/-! DEFINITION. What is checked before the machine gives a meaning: the bit pattern of an instruction word
(the predicate Valid of R94) and the size of a program image (R261). An `Instr` itself needs no check: its
operand types hold exactly the field values of R91, every one of which is legal (R93), so no ill-formed
`Instr` can be written down. -/

namespace Sys2Proof

/-- Group 0 holds 00E0 and 00EE alone (R94). -/
def validGroup0 (w : Word) : Bool := w == 0x00E0 || w == 0x00EE

/-- Groups 5 and 9 need a low nibble of 0 (R94). -/
def validGroup59 (w : Word) : Bool := w.extractLsb' 0 4 == 0x0

/-- Group 8 needs a low nibble in {0, .., 7, E} (R94, C7). -/
def validGroup8 (w : Word) : Bool :=
  let n := w.extractLsb' 0 4
  n == 0x0 || n == 0x1 || n == 0x2 || n == 0x3 || n == 0x4 || n == 0x5 || n == 0x6 || n == 0x7 || n == 0xE

/-- Group E needs a low byte of 9E or A1 (R94). -/
def validGroupE (w : Word) : Bool :=
  let b := w.extractLsb' 0 8
  b == 0x9E || b == 0xA1

/-- Group F needs one of nine low bytes (R94). -/
def validGroupF (w : Word) : Bool :=
  let b := w.extractLsb' 0 8
  b == 0x07 || b == 0x0A || b == 0x15 || b == 0x18 || b == 0x1E || b == 0x29 || b == 0x33 ||
    b == 0x55 || b == 0x65

/-- `Valid(w)` of R94: by bit pattern only, no register, memory or quirk is read (R98). -/
def validWord (w : Word) : Bool :=
  let op := w.extractLsb' 12 4
  if op == 0x0 then validGroup0 w
  else if op == 0x5 || op == 0x9 then validGroup59 w
  else if op == 0x8 then validGroup8 w
  else if op == 0xE then validGroupE w
  else if op == 0xF then validGroupF w
  else true

/-- A program image fits at 0x200 when it has at most 3584 bytes (R261, D14). -/
def imageFits (image : List Byte) : Bool := decide (image.length ≤ 3584)

end Sys2Proof
end

