-- ==== Sys2Proof/Decode.lean ====
section
/-! DEFINITION. The decoder, total on all 65536 words and on any bytes, rejecting by name (R94, R96, R102), and
the encoder written from the formats of R92. The decoder reads the 16 bits and nothing else (R98). -/

namespace Sys2Proof

/-! ## Fields of the instruction word (R91) -/

/-- `OP`, bits 15:12. -/
def fieldOP (w : Word) : BitVec 4 := w.extractLsb' 12 4
/-- `X`, bits 11:8. -/
def fieldX (w : Word) : RegNo := w.extractLsb' 8 4
/-- `Y`, bits 7:4. -/
def fieldY (w : Word) : RegNo := w.extractLsb' 4 4
/-- `N`, bits 3:0. -/
def fieldN (w : Word) : BitVec 4 := w.extractLsb' 0 4
/-- `NN`, bits 7:0. -/
def fieldNN (w : Word) : Byte := w.extractLsb' 0 8
/-- `NNN`, bits 11:0. -/
def fieldNNN (w : Word) : Addr12 := w.extractLsb' 0 12

/-! ## Decoding -/

/-- Why the decoder rejects. -/
inductive Reject where
  /-- the word matches no row of R95 (R96, R221) -/
  | invalidInstruction (w : Word)
  /-- fewer than the two bytes of an instruction are there (R90) -/
  | truncated
  deriving DecidableEq, Repr

/-- Group 0 (R95 rows 1 and 2). -/
def decodeGroup0 (w : Word) : Except Reject Instr :=
  if w = 0x00E0 then .ok .op00E0
  else if w = 0x00EE then .ok .op00EE
  else .error (.invalidInstruction w)

/-- Group 8 selects by the low nibble (R95 rows 10 to 18, R102). -/
def decodeGroup8 (w : Word) : Except Reject Instr :=
  match fieldN w with
  | 0x0#4 => .ok (.op8XY0 (fieldX w) (fieldY w))
  | 0x1#4 => .ok (.op8XY1 (fieldX w) (fieldY w))
  | 0x2#4 => .ok (.op8XY2 (fieldX w) (fieldY w))
  | 0x3#4 => .ok (.op8XY3 (fieldX w) (fieldY w))
  | 0x4#4 => .ok (.op8XY4 (fieldX w) (fieldY w))
  | 0x5#4 => .ok (.op8XY5 (fieldX w) (fieldY w))
  | 0x6#4 => .ok (.op8XY6 (fieldX w) (fieldY w))
  | 0x7#4 => .ok (.op8XY7 (fieldX w) (fieldY w))
  | 0xE#4 => .ok (.op8XYE (fieldX w) (fieldY w))
  | _ => .error (.invalidInstruction w)

/-- Group E selects by the low byte (R95 rows 24 and 25, R102). -/
def decodeGroupE (w : Word) : Except Reject Instr :=
  match fieldNN w with
  | 0x9E#8 => .ok (.opEX9E (fieldX w))
  | 0xA1#8 => .ok (.opEXA1 (fieldX w))
  | _ => .error (.invalidInstruction w)

/-- Group F selects by the low byte (R95 rows 26 to 34, R102). -/
def decodeGroupF (w : Word) : Except Reject Instr :=
  match fieldNN w with
  | 0x07#8 => .ok (.opFX07 (fieldX w))
  | 0x0A#8 => .ok (.opFX0A (fieldX w))
  | 0x15#8 => .ok (.opFX15 (fieldX w))
  | 0x18#8 => .ok (.opFX18 (fieldX w))
  | 0x1E#8 => .ok (.opFX1E (fieldX w))
  | 0x29#8 => .ok (.opFX29 (fieldX w))
  | 0x33#8 => .ok (.opFX33 (fieldX w))
  | 0x55#8 => .ok (.opFX55 (fieldX w))
  | 0x65#8 => .ok (.opFX65 (fieldX w))
  | _ => .error (.invalidInstruction w)

/-- The decode procedure of R102: dispatch on `w[15:12]`, then by the group's sub-opcode; a word that
matches no row of R95 is rejected as R96 says. -/
def decode (w : Word) : Except Reject Instr :=
  match fieldOP w with
  | 0x0#4 => decodeGroup0 w
  | 0x1#4 => .ok (.op1NNN (fieldNNN w))
  | 0x2#4 => .ok (.op2NNN (fieldNNN w))
  | 0x3#4 => .ok (.op3XNN (fieldX w) (fieldNN w))
  | 0x4#4 => .ok (.op4XNN (fieldX w) (fieldNN w))
  | 0x5#4 => if fieldN w = 0x0 then .ok (.op5XY0 (fieldX w) (fieldY w)) else .error (.invalidInstruction w)
  | 0x6#4 => .ok (.op6XNN (fieldX w) (fieldNN w))
  | 0x7#4 => .ok (.op7XNN (fieldX w) (fieldNN w))
  | 0x8#4 => decodeGroup8 w
  | 0x9#4 => if fieldN w = 0x0 then .ok (.op9XY0 (fieldX w) (fieldY w)) else .error (.invalidInstruction w)
  | 0xA#4 => .ok (.opANNN (fieldNNN w))
  | 0xB#4 => .ok (.opBNNN (fieldNNN w))
  | 0xC#4 => .ok (.opCXNN (fieldX w) (fieldNN w))
  | 0xD#4 => .ok (.opDXYN (fieldX w) (fieldY w) (fieldN w))
  | 0xE#4 => decodeGroupE w
  | 0xF#4 => decodeGroupF w
  | _ => .error (.invalidInstruction w)   -- never reached: the sixteen nibbles are above (R103)

/-- Two consecutive bytes as one word, the first the high half: the big-endian fetch of R63. -/
def wordOfBytes (hi lo : Byte) : Word := hi ++ lo
/-- The byte at the lower address: bits 15:8 (R63). -/
def highByte (w : Word) : Byte := w.extractLsb' 8 8
/-- The byte at the higher address: bits 7:0 (R63). -/
def lowByte (w : Word) : Byte := w.extractLsb' 0 8

/-- Decode the first instruction of a byte sequence; every instruction is two bytes, big-endian (R63, R90). -/
def decodeBytes : List Byte → Except Reject (Instr × List Byte)
  | hi :: lo :: rest =>
    match decode (wordOfBytes hi lo) with
    | .ok i => .ok (i, rest)
    | .error r => .error r
  | _ => .error .truncated

/-- The bytes in memory of an instruction whose bits are `w`, numbered as spec/opcode_table.json numbers
them: bit 0 least significant, the bits above `nbits` zero, the high byte at the lower address (R63, R90). -/
def tableBytes (nbits w : Nat) : List Byte :=
  let word : Word := BitVec.ofNat 16 (w % 2 ^ nbits)
  [highByte word, lowByte word]

/-- The instruction this decoder reads from a word of spec/opcode_table.json; none where it rejects. -/
def decodeTableWord (nbits w : Nat) : Option Instr :=
  match decodeBytes (tableBytes nbits w) with
  | .ok (i, _) => some i
  | .error _ => none

/-! ## Encoding (R92, R95) -/

/-- Format NNN: OP, then the 12-bit address. -/
def formatNNN (op : BitVec 4) (nnn : Addr12) : Word := op ++ nnn
/-- Formats XNN and XFF: OP, X, then a byte that is the immediate or the sub-opcode. -/
def formatXNN (op : BitVec 4) (x : RegNo) (nn : Byte) : Word := op ++ x ++ nn
/-- Formats XYF and XYN: OP, X, Y, then a nibble that is the sub-opcode or N. -/
def formatXYN (op : BitVec 4) (x y : RegNo) (n : BitVec 4) : Word := op ++ x ++ y ++ n

/-- The instruction word of an instruction (R92, R95). -/
def encode : Instr → Word
  | .op00E0 => 0x00E0
  | .op00EE => 0x00EE
  | .op1NNN nnn => formatNNN 0x1 nnn
  | .op2NNN nnn => formatNNN 0x2 nnn
  | .op3XNN x nn => formatXNN 0x3 x nn
  | .op4XNN x nn => formatXNN 0x4 x nn
  | .op5XY0 x y => formatXYN 0x5 x y 0x0
  | .op6XNN x nn => formatXNN 0x6 x nn
  | .op7XNN x nn => formatXNN 0x7 x nn
  | .op8XY0 x y => formatXYN 0x8 x y 0x0
  | .op8XY1 x y => formatXYN 0x8 x y 0x1
  | .op8XY2 x y => formatXYN 0x8 x y 0x2
  | .op8XY3 x y => formatXYN 0x8 x y 0x3
  | .op8XY4 x y => formatXYN 0x8 x y 0x4
  | .op8XY5 x y => formatXYN 0x8 x y 0x5
  | .op8XY6 x y => formatXYN 0x8 x y 0x6
  | .op8XY7 x y => formatXYN 0x8 x y 0x7
  | .op8XYE x y => formatXYN 0x8 x y 0xE
  | .op9XY0 x y => formatXYN 0x9 x y 0x0
  | .opANNN nnn => formatNNN 0xA nnn
  | .opBNNN nnn => formatNNN 0xB nnn
  | .opCXNN x nn => formatXNN 0xC x nn
  | .opDXYN x y n => formatXYN 0xD x y n
  | .opEX9E x => formatXNN 0xE x 0x9E
  | .opEXA1 x => formatXNN 0xE x 0xA1
  | .opFX07 x => formatXNN 0xF x 0x07
  | .opFX0A x => formatXNN 0xF x 0x0A
  | .opFX15 x => formatXNN 0xF x 0x15
  | .opFX18 x => formatXNN 0xF x 0x18
  | .opFX1E x => formatXNN 0xF x 0x1E
  | .opFX29 x => formatXNN 0xF x 0x29
  | .opFX33 x => formatXNN 0xF x 0x33
  | .opFX55 x => formatXNN 0xF x 0x55
  | .opFX65 x => formatXNN 0xF x 0x65

/-! ## The opcode map as data (R95) -/

/-- A row of the table of R95: `w` is the instruction when `w AND mask = pattern`. -/
structure OpcodeRow where
  mnemonic : String
  mask : Word
  pattern : Word
  deriving DecidableEq, Repr

/-- `w` matches the row (R95). -/
def OpcodeRow.matches (r : OpcodeRow) (w : Word) : Bool := (w &&& r.mask) == r.pattern

/-- Rows 1 to 9 of R95. -/
def opcodeRowsControl : List OpcodeRow :=
  [⟨"00E0", 0xFFFF, 0x00E0⟩, ⟨"00EE", 0xFFFF, 0x00EE⟩, ⟨"1NNN", 0xF000, 0x1000⟩, ⟨"2NNN", 0xF000, 0x2000⟩,
   ⟨"3XNN", 0xF000, 0x3000⟩, ⟨"4XNN", 0xF000, 0x4000⟩, ⟨"5XY0", 0xF00F, 0x5000⟩, ⟨"6XNN", 0xF000, 0x6000⟩,
   ⟨"7XNN", 0xF000, 0x7000⟩]

/-- Rows 10 to 18 of R95. -/
def opcodeRowsGroup8 : List OpcodeRow :=
  [⟨"8XY0", 0xF00F, 0x8000⟩, ⟨"8XY1", 0xF00F, 0x8001⟩, ⟨"8XY2", 0xF00F, 0x8002⟩, ⟨"8XY3", 0xF00F, 0x8003⟩,
   ⟨"8XY4", 0xF00F, 0x8004⟩, ⟨"8XY5", 0xF00F, 0x8005⟩, ⟨"8XY6", 0xF00F, 0x8006⟩, ⟨"8XY7", 0xF00F, 0x8007⟩,
   ⟨"8XYE", 0xF00F, 0x800E⟩]

/-- Rows 19 to 34 of R95. -/
def opcodeRowsHigh : List OpcodeRow :=
  [⟨"9XY0", 0xF00F, 0x9000⟩, ⟨"ANNN", 0xF000, 0xA000⟩, ⟨"BNNN", 0xF000, 0xB000⟩, ⟨"CXNN", 0xF000, 0xC000⟩,
   ⟨"DXYN", 0xF000, 0xD000⟩, ⟨"EX9E", 0xF0FF, 0xE09E⟩, ⟨"EXA1", 0xF0FF, 0xE0A1⟩, ⟨"FX07", 0xF0FF, 0xF007⟩,
   ⟨"FX0A", 0xF0FF, 0xF00A⟩, ⟨"FX15", 0xF0FF, 0xF015⟩, ⟨"FX18", 0xF0FF, 0xF018⟩, ⟨"FX1E", 0xF0FF, 0xF01E⟩,
   ⟨"FX29", 0xF0FF, 0xF029⟩, ⟨"FX33", 0xF0FF, 0xF033⟩, ⟨"FX55", 0xF0FF, 0xF055⟩, ⟨"FX65", 0xF0FF, 0xF065⟩]

/-- The opcode map of R95, 34 rows (R97). -/
def opcodeTable : List OpcodeRow := opcodeRowsControl ++ opcodeRowsGroup8 ++ opcodeRowsHigh

/-- The row of the opcode map an instruction belongs to, by its mnemonic. -/
def mnemonic : Instr → String
  | .op00E0 => "00E0"
  | .op00EE => "00EE"
  | .op1NNN _ => "1NNN"
  | .op2NNN _ => "2NNN"
  | .op3XNN _ _ => "3XNN"
  | .op4XNN _ _ => "4XNN"
  | .op5XY0 _ _ => "5XY0"
  | .op6XNN _ _ => "6XNN"
  | .op7XNN _ _ => "7XNN"
  | .op8XY0 _ _ => "8XY0"
  | .op8XY1 _ _ => "8XY1"
  | .op8XY2 _ _ => "8XY2"
  | .op8XY3 _ _ => "8XY3"
  | .op8XY4 _ _ => "8XY4"
  | .op8XY5 _ _ => "8XY5"
  | .op8XY6 _ _ => "8XY6"
  | .op8XY7 _ _ => "8XY7"
  | .op8XYE _ _ => "8XYE"
  | .op9XY0 _ _ => "9XY0"
  | .opANNN _ => "ANNN"
  | .opBNNN _ => "BNNN"
  | .opCXNN _ _ => "CXNN"
  | .opDXYN _ _ _ => "DXYN"
  | .opEX9E _ => "EX9E"
  | .opEXA1 _ => "EXA1"
  | .opFX07 _ => "FX07"
  | .opFX0A _ => "FX0A"
  | .opFX15 _ => "FX15"
  | .opFX18 _ => "FX18"
  | .opFX1E _ => "FX1E"
  | .opFX29 _ => "FX29"
  | .opFX33 _ => "FX33"
  | .opFX55 _ => "FX55"
  | .opFX65 _ => "FX65"

/-! ## Assembly (R99)

The spec's own syntax for readable programs: no behaviour depends on it. -/

/-- One hexadecimal digit. -/
def hexDigit (d : BitVec 4) : String :=
  if d = 0x0 then "0" else if d = 0x1 then "1" else if d = 0x2 then "2" else if d = 0x3 then "3"
  else if d = 0x4 then "4" else if d = 0x5 then "5" else if d = 0x6 then "6" else if d = 0x7 then "7"
  else if d = 0x8 then "8" else if d = 0x9 then "9" else if d = 0xA then "A" else if d = 0xB then "B"
  else if d = 0xC then "C" else if d = 0xD then "D" else if d = 0xE then "E" else "F"

/-- A register's name, `V0` to `VF`. -/
def regName (x : RegNo) : String := "V" ++ hexDigit x

/-- An 8-bit immediate, a hexadecimal numeral with 0x. -/
def byteText (b : Byte) : String := "0x" ++ hexDigit (b.extractLsb' 4 4) ++ hexDigit (b.extractLsb' 0 4)

/-- A 12-bit address, a hexadecimal numeral with 0x. -/
def addrText (a : Addr12) : String :=
  "0x" ++ hexDigit (a.extractLsb' 8 4) ++ hexDigit (a.extractLsb' 4 4) ++ hexDigit (a.extractLsb' 0 4)

/-- A line of the assembly column of R95 with the field values substituted (R99). -/
def assembly : Instr → String
  | .op00E0 => "CLS"
  | .op00EE => "RET"
  | .op1NNN nnn => "JP " ++ addrText nnn
  | .op2NNN nnn => "CALL " ++ addrText nnn
  | .op3XNN x nn => "SE " ++ regName x ++ ", " ++ byteText nn
  | .op4XNN x nn => "SNE " ++ regName x ++ ", " ++ byteText nn
  | .op5XY0 x y => "SE " ++ regName x ++ ", " ++ regName y
  | .op6XNN x nn => "LD " ++ regName x ++ ", " ++ byteText nn
  | .op7XNN x nn => "ADD " ++ regName x ++ ", " ++ byteText nn
  | .op8XY0 x y => "LD " ++ regName x ++ ", " ++ regName y
  | .op8XY1 x y => "OR " ++ regName x ++ ", " ++ regName y
  | .op8XY2 x y => "AND " ++ regName x ++ ", " ++ regName y
  | .op8XY3 x y => "XOR " ++ regName x ++ ", " ++ regName y
  | .op8XY4 x y => "ADD " ++ regName x ++ ", " ++ regName y
  | .op8XY5 x y => "SUB " ++ regName x ++ ", " ++ regName y
  | .op8XY6 x y => "SHR " ++ regName x ++ ", " ++ regName y
  | .op8XY7 x y => "SUBN " ++ regName x ++ ", " ++ regName y
  | .op8XYE x y => "SHL " ++ regName x ++ ", " ++ regName y
  | .op9XY0 x y => "SNE " ++ regName x ++ ", " ++ regName y
  | .opANNN nnn => "LD I, " ++ addrText nnn
  | .opBNNN nnn => "JP V0, " ++ addrText nnn
  | .opCXNN x nn => "RND " ++ regName x ++ ", " ++ byteText nn
  | .opDXYN x y n => "DRW " ++ regName x ++ ", " ++ regName y ++ ", 0x" ++ hexDigit n
  | .opEX9E x => "SKP " ++ regName x
  | .opEXA1 x => "SKNP " ++ regName x
  | .opFX07 x => "LD " ++ regName x ++ ", DT"
  | .opFX0A x => "LD " ++ regName x ++ ", K"
  | .opFX15 x => "LD DT, " ++ regName x
  | .opFX18 x => "LD ST, " ++ regName x
  | .opFX1E x => "ADD I, " ++ regName x
  | .opFX29 x => "LD F, " ++ regName x
  | .opFX33 x => "LD B, " ++ regName x
  | .opFX55 x => "LD [I], " ++ regName x
  | .opFX65 x => "LD " ++ regName x ++ ", [I]"

end Sys2Proof
end

