-- ==== Sys2Proof/Config.lean ====
section
/-! DEFINITION. What is fixed for one machine and what the spec leaves free: the quirk flags, the font table,
the values the outside world puts on the input signals, and how timer ticks fall between cycles. Each open
value is an opaque constant: nothing in Lean can evaluate it, so a statement holds for every value of it. -/

namespace Sys2Proof

/-- The four quirk flags of `QUIRK` (R30), fixed from reset to reset. -/
structure Quirk where
  /-- bit 0: 8XY6 and 8XYE take their operand from VY (R151, R153) -/
  shiftUseVY : Bool
  /-- bit 1: BNNN adds V[X], X = NNN[11:8], and not V0 (R130) -/
  jumpWeird : Bool
  /-- bit 2: FX1E writes VF (R171) -/
  addToIndexOverflow : Bool
  /-- bit 3: FX55 and FX65 advance `I` (R174, R175) -/
  memChangeIndex : Bool
  deriving DecidableEq, Repr, Inhabited

/-- The register `QUIRK` as four bits, in the bit assignment of R30. -/
def Quirk.bits (q : Quirk) : BitVec 4 :=
  BitVec.ofBool q.memChangeIndex ++ BitVec.ofBool q.addToIndexOverflow ++
    BitVec.ofBool q.jumpWeird ++ BitVec.ofBool q.shiftUseVY

/-- What the input signals of R34 carry while one cycle runs. A cycle executes one instruction and an
instruction samples a signal at most once, so one record a cycle is one sample an instruction. -/
structure Inputs where
  /-- `RND`, the random byte (R154) -/
  rnd : Byte
  /-- `KEY_DOWN[0..15]` as the key provider gives them; read them through `Machine.keyIsDown` (log 4) -/
  keyDown : Vector Bool 16
  /-- `KEY_LATEST`: none, or the key most recently observed pressed and still held (R34, R202) -/
  keyLatest : Option (Fin 16)
  deriving DecidableEq, Repr, Inhabited

/-- Font and memory-map constants of R5. -/
def Config.fontBase : Nat := 0x050
/-- Last address of the font table (R5). -/
def Config.fontEnd : Nat := 0x09F
/-- Load address and entry point of a program (R5, R261). -/
def Config.progBase : Nat := 0x200
/-- Size of memory, addresses 0x000 to 0xFFF (R5, R60). -/
def Config.memSize : Nat := 0x1000

/-- `FONT[0..79]`, the open parameter of R6 and R62 (D7): the spec gives no glyph byte. -/
opaque Config.font : Fin 80 → Byte

/-- `QUIRK_IN` at power-on, the caller-supplied flags of R6 and R30 (D8): the spec gives no default. -/
opaque Config.quirkIn : Quirk

/-- FREE VALUE: the n-th sample the outside world puts on the input signals of a cycle that the schedule
does not supply with one (R7, R34, D9, D18; log 4). -/
opaque Config.inputs : Nat → Inputs

/-- FREE VALUE: whether the timer agent moves before the next cycle, where the schedule does not say
(R236, D10; log 3). -/
opaque Config.tickNext : Nat → Bool

end Sys2Proof
end

