-- ==== Sys2Proof/Machine/State.lean ====
section
/-! DEFINITION. The machine's state as plain data: every piece of state 10_state.md gives the machine (R20 to
R33), then, in one record `env`, what the model itself keeps about the machine's surroundings. -/

namespace Sys2Proof.Machine

/-- The kinds of the FAULT record with the information each carries (R243). The word and the fetch address
that an InvalidInstruction carries are the record's own fields. -/
inductive FaultKind where
  /-- code 1: the fetched word is not valid (R221) -/
  | invalidInstruction
  /-- code 2: EX9E, EXA1 or FX29 with a register value above 0xF, which is carried (R222) -/
  | outOfRangeKeyReference (value : Byte)
  /-- code 3: the host's load could not supply an image that fits (R223) -/
  | programLoadFailure
  /-- code 4: the access range, `count` bytes from `base`, has an address above 0xFFF (R224) -/
  | addressOutOfRange (base count : Nat)
  /-- code 5: 2NNN with 16 entries in use (R225) -/
  | stackOverflow
  /-- code 6: 00EE on an empty stack (R226) -/
  | stackUnderflow
  /-- code 7: a store range that meets the font table (R227) -/
  | fontTableWrite (base : Nat)
  deriving DecidableEq, Repr

/-- The record `FAULT` (R33, R243): kind and information, the fetch address, and the word where one was
fetched. -/
structure FaultRecord where
  kind : FaultKind
  addr : Word
  word : Option Word
  deriving DecidableEq, Repr

/-- One step of one agent, or one host action (R8, R264). -/
inductive Event where
  /-- `exec_step`: a cycle of the execution agent (R120), with what the input signals carry in it (R34) -/
  | cycle (signals : Inputs)
  /-- `timer_tick`: a step of the timer agent (R233) -/
  | tick
  /-- `reset` with `QUIRK_IN` (R260) -/
  | reset (quirkIn : Quirk)
  /-- `load(image)` (R261); `none` when the loader cannot supply the bytes (R223) -/
  | load (image : Option (List Byte))
  deriving DecidableEq, Repr

/-- The machine's surroundings: fields of the MODEL, not of the spec. -/
structure Env where
  /-- what the input signals carry in the current cycle (R34); set at the start of each cycle -/
  inputs : Inputs
  /-- which agent moves next, and what the host does, oldest first (R8, R236, R264; log 3) -/
  schedule : List Event
  /-- how many free values have been asked for: the argument of the opaque constants of Config -/
  draws : Nat
  /-- a load is allowed: none, and no cycle, since the last reset (R261, D14) -/
  loadable : Bool
  deriving DecidableEq, Repr

/-- Memory as (address, byte) pairs in canonical form (`Memory.wf`); an unlisted address reads as its reset
content (`Memory.initial`). -/
abbrev Memory := List Host.Cell

/-- The pixel buffer: row y (0 to 31, from the top), then column x (0 to 63, from the left) (R31, R193). -/
abbrev Pixels := Vector (Vector Bool 64) 32

/-- The machine state. -/
structure State where
  /-- `V[0]` to `V[15]` (R20) -/
  v : Vector Byte 16
  /-- `I` (R22) -/
  index : Word
  /-- `PC` (R23) -/
  pc : Word
  /-- `STACK[0]` to `STACK[15]` (R25) -/
  stack : Vector Word 16
  /-- `SP` + 1, the number of free entries: `SP` is an integer in -1..15 (R25, D19); read it by `State.sp` -/
  spFree : Fin 17
  /-- `DT` (R28) -/
  dt : Byte
  /-- `ST` (R29) -/
  st : Byte
  /-- `QUIRK` (R30) -/
  quirk : Quirk
  /-- `PIX` (R31) -/
  pix : Pixels
  /-- `MEM` (R32) -/
  mem : Memory
  /-- `HALT` (R33) -/
  halt : Bool
  /-- `FAULT` (R33) -/
  fault : Option FaultRecord
  /-- `TONE` (R33, R235) -/
  tone : Bool
  /-- the model's own record of the surroundings -/
  env : Env
  deriving DecidableEq, Repr

/-- How a step can end without a next state. A fault of the spec (R220) is not here: it is a next state with
HALT and FAULT written. -/
inductive Fault where
  /-- Raised by `step` for a cycle or a tick while HALT = 1: "the execution agent takes no further step" and the
  timer agent takes none (R229, R230). Stuck state. SAFE: the spec gives no step there. -/
  | halted
  deriving DecidableEq, Repr

/-- What the model gives no meaning. -/
inductive Refusal where
  /-- Raised by `exec`'s arm of an instruction that has no meaning yet. SAFE. No arm raises it. -/
  | notModelled (mnemonic : String)
  /-- Raised by `step` for a host load that is not the first since reset or comes after the first cycle: the
  model has no such host step (R264, U16). SAFE. -/
  | loadNotAllowed
  deriving DecidableEq, Repr

/-- No input: the value of the input signals at reset, which no cycle from reset reads (log 4). -/
def quietInputs : Inputs := ⟨0, Vector.replicate 16 false, none⟩

/-- The machine right after reset (R37, R260): every value is the spec's, `QUIRK` is `QUIRK_IN` as sampled
(log 2), and `env` is the model's own (log 3, log 4, log 5). -/
def State.reset : State where
  v := Vector.replicate 16 0
  index := 0
  pc := 0
  stack := Vector.replicate 16 0
  spFree := 16
  dt := 0
  st := 0
  quirk := Config.quirkIn
  pix := Vector.replicate 32 (Vector.replicate 64 false)
  mem := []
  halt := false
  fault := none
  tone := false
  env := ⟨quietInputs, [], 0, true⟩

end Sys2Proof.Machine
end

