-- ==== Sys2Proof/Machine/Ops.lean ====
section
/-! DEFINITION. The named operations over memory, registers, the call stack and the pixel buffer, and the one
operation by which a fault is raised (R220). -/

namespace Sys2Proof.Machine

/-! ## Memory (20_memory.md) -/

/-- The reset content of an address, which is what an unlisted address reads as: FONT at 0x050..0x09F and
0x00 elsewhere (R32, R37, R62). -/
def Memory.initial (a : Nat) : Byte :=
  if h : 0x050 ≤ a ∧ a ≤ 0x09F then Config.font ⟨a - 0x050, by omega⟩ else 0x00

/-- `MEM[a]`. -/
def Memory.read : Memory → Nat → Byte
  | [], a => Memory.initial a
  | (b, u) :: m, a => if a = b then u else Memory.read m a

/-- `MEM[a] <- v`, keeping the canonical form: a byte equal to the reset content is not listed. -/
def Memory.write : Memory → Nat → Byte → Memory
  | [], a, v => if v = Memory.initial a then [] else [(a, v)]
  | (b, u) :: m, a, v =>
    if a < b then (if v = Memory.initial a then (b, u) :: m else (a, v) :: (b, u) :: m)
    else if a = b then (if v = Memory.initial a then m else (a, v) :: m)
    else (b, u) :: Memory.write m a v

/-- The bytes `base`, `base + 1`, … in ascending order (R64). -/
def Memory.readBytes (m : Memory) (base : Nat) : Nat → List Byte
  | 0 => []
  | n + 1 => m.read base :: Memory.readBytes m (base + 1) n

/-- Write the bytes at `base`, `base + 1`, … in ascending order (R64). -/
def Memory.writeBytes (m : Memory) (base : Nat) : List Byte → Memory
  | [] => m
  | v :: vs => Memory.writeBytes (m.write base v) (base + 1) vs

/-- The canonical form: addresses strictly rising, all in 0x000..0xFFF (R60), no entry equal to the reset
content of its address. -/
abbrev Memory.wf (m : Memory) : Prop :=
  m.Pairwise (fun c d => c.1 < d.1) ∧ ∀ c ∈ m, c.1 ≤ 0xFFF ∧ c.2 ≠ Memory.initial c.1

/-- The font table is listed nowhere, so each of its bytes reads as FONT: "immutable" (R61, R62, R67). -/
abbrev Memory.fontIntact (m : Memory) : Prop := ∀ c ∈ m, ¬ (0x050 ≤ c.1 ∧ c.1 ≤ 0x09F)

/-- `CheckRead(base, count)` of R68: a range with an address above 0xFFF raises AddressOutOfRange. -/
def checkRead (base count : Nat) : Option FaultKind :=
  if 0xFFF < base + count - 1 then some (.addressOutOfRange base count) else none

/-- `CheckWrite(base, count)` of R68: the range check first, then the font table. -/
def checkWrite (base count : Nat) : Option FaultKind :=
  if 0xFFF < base + count - 1 then some (.addressOutOfRange base count)
  else if base ≤ 0x09F ∧ 0x050 ≤ base + count - 1 then some (.fontTableWrite base)
  else none

/-- `MemRead(a, 2)`, the fetch: big-endian, from any address, odd ones too (R63, R65, R68). -/
def fetchWord (m : Memory) (a : Nat) : Except FaultKind Word :=
  match checkRead a 2 with
  | some k => .error k
  | none => .ok (wordOfBytes (m.read a) (m.read (a + 1)))

/-! ## General registers (R20) -/

/-- `V[x]`. -/
def State.reg (s : State) (x : RegNo) : Byte := s.v[x.toNat]'(x.isLt)

/-- `V[x] <- b`. -/
def State.setReg (s : State) (x : RegNo) (b : Byte) : State :=
  { s with v := s.v.set x.toNat b x.isLt }

/-- Load consecutive registers from number `i` up, in ascending order. -/
def loadFrom (v : Vector Byte 16) (i : Nat) : List Byte → Vector Byte 16
  | [] => v
  | b :: bs => loadFrom (v.setIfInBounds i b) (i + 1) bs

/-- `V[0]`, …, `V[x]` in ascending order. -/
def State.regsTo (s : State) (x : RegNo) : List Byte := s.v.toList.take (x.toNat + 1)

/-! ## Call stack (R25 to R27) -/

/-- `SP`: 15 empty, -1 full (R25). -/
def State.sp (s : State) : Int := (s.spFree.val : Int) - 1

/-- `Push(v)` of R26. -/
def State.push (s : State) (v : Word) : Except FaultKind State :=
  if h : s.spFree.val = 0 then .error .stackOverflow
  else .ok { s with
    stack := s.stack.set (s.spFree.val - 1) v (by omega)
    spFree := ⟨s.spFree.val - 1, by omega⟩ }

/-- `Pop()` of R27, into `PC` (its only use, R123). -/
def State.popPc (s : State) : Except FaultKind State :=
  if h : s.spFree.val = 16 then .error .stackUnderflow
  else .ok { s with
    pc := s.stack[s.spFree.val]'(by omega)
    spFree := ⟨s.spFree.val + 1, by omega⟩ }

/-! ## Pixels (R31, R193) -/

/-- `PIX[y][x]`; a pixel outside the buffer is unlit. -/
def Pixels.get (p : Pixels) (x y : Nat) : Bool :=
  if h : x < 64 ∧ y < 32 then (p[y]'h.2)[x]'h.1 else false

/-- `PIX[y][x] <- b`; there is nothing outside the buffer to write. -/
def Pixels.put (p : Pixels) (x y : Nat) (b : Bool) : Pixels :=
  if h : x < 64 ∧ y < 32 then p.set y ((p[y]'h.2).set x b h.1) h.2 else p

/-- All pixels unlit. -/
def Pixels.clear : Pixels := Vector.replicate 32 (Vector.replicate 64 false)

/-! ## Program counter -/

/-- Skip the next instruction when `c`: `PC <- (PC + 2) mod 65536` once more (R122). -/
def State.skipIf (s : State) (c : Bool) : State :=
  { s with pc := if c then s.pc + 2 else s.pc }

/-! ## Faults (60_exceptions.md) -/

/-- `raise k`: HALT is set and FAULT is written with the kind, the fetch address and the word where one was
fetched; nothing else changes, no handler is entered and nothing is saved (R220, R229, R243, R244). -/
def State.raise (s : State) (k : FaultKind) (addr : Word) (word : Option Word) : State :=
  { s with halt := true, fault := some ⟨k, addr, word⟩ }

/-- A raise in the execute stage of `i`. `PC` is a + 2 there (R120), so the fetch address a is `PC` - 2; the
word is the instruction's own, the one word it decodes from (R95). -/
def State.raiseIn (s : State) (i : Instr) (k : FaultKind) : State :=
  s.raise k (s.pc - 2) (some (encode i))

/-- How a meaning answers: the state its execute stage leaves, or the state the raised fault leaves (R220). -/
def answer (i : Instr) (s : State) (r : Except FaultKind State) :
    Host.Outcome State Fault Refusal :=
  .next (match r with
    | .ok t => t
    | .error k => s.raiseIn i k)

/-- The state `t` unless a check made on `s` raises. -/
def guarded (check : Option FaultKind) (t : State) : Except FaultKind State :=
  match check with
  | some k => .error k
  | none => .ok t

/-- The 3-bit `fault_code` output (R243, D15); 0 when there is no fault. -/
def FaultKind.code : FaultKind → BitVec 3
  | .invalidInstruction => 1
  | .outOfRangeKeyReference _ => 2
  | .programLoadFailure => 3
  | .addressOutOfRange _ _ => 4
  | .stackOverflow => 5
  | .stackUnderflow => 6
  | .fontTableWrite _ => 7

/-- `fault_code` of a state (R243). -/
def State.faultCode (s : State) : BitVec 3 :=
  match s.fault with
  | none => 0
  | some r => r.kind.code

end Sys2Proof.Machine
end

