-- ==== Sys2Proof/Machine/Flags.lean ====
section
/-! DEFINITION. The flag computations (R21, R140): each computes on unsigned integers and narrows at the end,
and the order in which a flag-writing instruction writes VF and VX (R141). -/

namespace Sys2Proof.Machine

/-- `VF`, register 15 (R20, R21). -/
abbrev vf : RegNo := 0xF

/-- A flag is stored as 0x01 or 0x00 (R21). -/
def flagByte (b : Bool) : Byte := if b then 0x01 else 0x00

/-- What a flag-writing ALU operation gives: the 8-bit result and the flag. -/
structure AluResult where
  value : Byte
  flag : Bool
  deriving DecidableEq, Repr

/-- x + y; the flag is the carry, set when the true sum exceeds 255 (R148). -/
def addCarry (x y : Byte) : AluResult :=
  let sum := x.toNat + y.toNat
  ⟨BitVec.ofNat 8 sum, decide (255 < sum)⟩

/-- x − y modulo 256; the flag is set when x > y, strictly (R149, R150, N12). -/
def subGreater (x y : Byte) : AluResult :=
  ⟨BitVec.ofInt 8 ((x.toNat : Int) - (y.toNat : Int)), decide (x.toNat > y.toNat)⟩

/-- t >> 1 with a zero entering at bit 7; the flag is bit 0 of t (R151, R152). -/
def shiftRight (t : Byte) : AluResult := ⟨t >>> 1, t.getLsbD 0⟩

/-- (t << 1) mod 256 with a zero entering at bit 0; the flag is bit 7 of t (R152, R153). -/
def shiftLeft (t : Byte) : AluResult := ⟨t <<< 1, t.getLsbD 7⟩

/-- The flag of FX1E under AddToIndexOverflow tests the new `I` (R171). -/
def indexOverflow (newIndex : Word) : Bool := decide (newIndex.toNat > 0xFFF)

/-- The two writes of a flag-writing ALU instruction, the operands having been read before: VF first, then
V[x], so that with x = F the result stays and the flag is lost (R141, D4). -/
def State.writeFlagged (s : State) (x : RegNo) (r : AluResult) : State :=
  (s.setReg vf (flagByte r.flag)).setReg x r.value

end Sys2Proof.Machine
end

