-- ==== Sys2Proof/Machine/Operands.lean ====
section
/-! DEFINITION. The operand forms: immediates widened to 16 bits (R93), the operands the quirk flags select
(R130, R151, R153), key operands (R206), effective addresses (R176), the sprite origin (R192), and the block
transfers' update of `I` (R174, R175). -/

namespace Sys2Proof.Machine

/-- `zext_16(NNN)` (R93). -/
def zextAddr (nnn : Addr12) : Word := nnn.setWidth 16

/-- `zext_16(b)` of a register value (R130, R171). -/
def zextByte (b : Byte) : Word := b.setWidth 16

/-- What 8XY6 and 8XYE shift: VY under ShiftUseVY, else VX (R151, R153). -/
def State.shiftOperand (s : State) (x y : RegNo) : Byte :=
  if s.quirk.shiftUseVY then s.reg y else s.reg x

/-- The register BNNN adds: V[NNN[11:8]] under JumpWeird, else V0 (R130). -/
def State.jumpOffset (s : State) (nnn : Addr12) : Byte :=
  if s.quirk.jumpWeird then s.reg (nnn.extractLsb' 8 4) else s.reg 0

/-- A register used as a key or hexadecimal digit must hold a value ≤ 0xF; it is not masked (R172, R206). -/
def keyDigit (b : Byte) : Except FaultKind (Fin 16) :=
  if h : b.toNat ≤ 0x0F then .ok ⟨b.toNat, by omega⟩ else .error (.outOfRangeKeyReference b)

/-- `KEY_DOWN[k]`. The signals obey one law, "KEY_LATEST = k implies KEY_DOWN[k]" (R34, D18): the key that is
reported as still held counts as down (log 4). -/
def keyIsDown (i : Inputs) (k : Fin 16) : Bool := i.keyDown[k] || i.keyLatest == some k

/-- The base address of a data access; `EA(i) = I + i` is an unbounded integer (R176). -/
def State.base (s : State) : Nat := s.index.toNat

/-- The sprite's column, V[X] mod 64 (R192). -/
def State.originX (s : State) (x : RegNo) : Nat := (s.reg x).toNat % 64

/-- The sprite's row, V[Y] mod 32 (R192). -/
def State.originY (s : State) (y : RegNo) : Nat := (s.reg y).toNat % 32

/-- The number of bytes FX55 and FX65 move: X + 1 (R174, R175). -/
def blockCount (x : RegNo) : Nat := x.toNat + 1

/-- `I` after FX55 or FX65: advanced by X + 1 under MemChangeIndex, else unchanged (R174, R175). -/
def State.blockIndex (s : State) (x : RegNo) : Word :=
  if s.quirk.memChangeIndex then s.index + BitVec.ofNat 16 (blockCount x) else s.index

/-- The hundreds, tens and units of a byte, one binary value each (R173). -/
def decimalDigits (b : Byte) : List Byte :=
  [BitVec.ofNat 8 (b.toNat / 100), BitVec.ofNat 8 (b.toNat / 10 % 10), BitVec.ofNat 8 (b.toNat % 10)]

/-- The address of the glyph of a hexadecimal digit: font base + 5 × digit (R62, R172). -/
def glyphAddress (d : Fin 16) : Word := BitVec.ofNat 16 (0x050 + 5 * d.val)

end Sys2Proof.Machine
end

