-- ==== Sys2Proof/Machine/Agents.lean ====
section
/-! DEFINITION. What moves beside the execution agent: the timer agent's tick (R233) and the host's reset and
load (R260, R261), and the choice of what happens next (R8, R236). -/

namespace Sys2Proof.Machine

/-- A timer decremented toward 0, never below (R233, R234). -/
def countDown (t : Byte) : Byte := if t = 0 then 0 else t - 1

/-- `Tick()` of R233: both timers, and nothing else. -/
def State.tick (s : State) : State := { s with dt := countDown s.dt, st := countDown s.st }

/-- The host's `reset` with `QUIRK_IN` (R260): every piece of machine state takes its reset value. What the
host does next and the count of free values are the surroundings', and stay. -/
def State.hostReset (s : State) (quirkIn : Quirk) : State :=
  { State.reset with quirk := quirkIn, env := { s.env with loadable := true } }

/-- The host's `load(image)` of R261: the bytes from 0x200 on, and `PC` = 0x200. An image that cannot be
supplied or does not fit is a ProgramLoadFailure (R223), whose record carries `PC` as its address (log 6). -/
def State.hostLoad (s : State) (image : Option (List Byte)) : State :=
  let s := { s with env := { s.env with loadable := false } }
  match image with
  | none => s.raise .programLoadFailure s.pc none
  | some bytes =>
    if imageFits bytes then { s with mem := s.mem.writeBytes 0x200 bytes, pc := 0x0200 }
    else s.raise .programLoadFailure s.pc none

/-- What happens next: the head of the schedule; where the schedule is empty, a cycle with a free sample of the
input signals, or a tick where the free choice says so and a timer is running. A tick with both timers at 0
changes nothing (R234), so leaving it out leaves no behaviour out. -/
def State.nextEvent (s : State) : Event :=
  match s.env.schedule with
  | e :: _ => e
  | [] =>
    if s.dt = 0 ∧ s.st = 0 then .cycle (Config.inputs s.env.draws)
    else if Config.tickNext s.env.draws then .tick
    else .cycle (Config.inputs s.env.draws)

/-- The surroundings once the next event is taken: off the schedule, or one more free value drawn. -/
def State.dropEvent (s : State) : State :=
  { s with env :=
    match s.env.schedule with
    | _ :: es => { s.env with schedule := es }
    | [] => { s.env with draws := s.env.draws + 1 } }

end Sys2Proof.Machine
end

