-- ==== Sys2Proof/Machine/Alu.lean ====
section
/-! DEFINITION. The load, arithmetic, logic, shift and random instructions 6XNN, 7XNN, 8XY0 to 8XY7, 8XYE,
CXNN (41_load_alu.md). None can fault. -/

namespace Sys2Proof.Machine

/-- 6XNN: `V[X] <- NN` (R142). -/
def exec6XNN (x : RegNo) (nn : Byte) (s : State) : Host.Outcome State Fault Refusal :=
  .next (s.setReg x nn)

/-- 7XNN: `V[X] <- (V[X] + NN) mod 256`, no flag (R143). -/
def exec7XNN (x : RegNo) (nn : Byte) (s : State) : Host.Outcome State Fault Refusal :=
  .next (s.setReg x (s.reg x + nn))

/-- 8XY0: `V[X] <- V[Y]` (R144). -/
def exec8XY0 (x y : RegNo) (s : State) : Host.Outcome State Fault Refusal :=
  .next (s.setReg x (s.reg y))

/-- 8XY1: `V[X] <- V[X] OR V[Y]` (R145). -/
def exec8XY1 (x y : RegNo) (s : State) : Host.Outcome State Fault Refusal :=
  .next (s.setReg x (s.reg x ||| s.reg y))

/-- 8XY2: `V[X] <- V[X] AND V[Y]` (R146). -/
def exec8XY2 (x y : RegNo) (s : State) : Host.Outcome State Fault Refusal :=
  .next (s.setReg x (s.reg x &&& s.reg y))

/-- 8XY3: `V[X] <- V[X] XOR V[Y]` (R147). -/
def exec8XY3 (x y : RegNo) (s : State) : Host.Outcome State Fault Refusal :=
  .next (s.setReg x (s.reg x ^^^ s.reg y))

/-- 8XY4: VF := carry, VX := VX + VY (R148, R141). -/
def exec8XY4 (x y : RegNo) (s : State) : Host.Outcome State Fault Refusal :=
  .next (s.writeFlagged x (addCarry (s.reg x) (s.reg y)))

/-- 8XY5: VF := (VX > VY), VX := VX − VY (R149, R141). -/
def exec8XY5 (x y : RegNo) (s : State) : Host.Outcome State Fault Refusal :=
  .next (s.writeFlagged x (subGreater (s.reg x) (s.reg y)))

/-- 8XY6: VF := bit 0 of the operand, VX := operand >> 1 (R151, R141). -/
def exec8XY6 (x y : RegNo) (s : State) : Host.Outcome State Fault Refusal :=
  .next (s.writeFlagged x (shiftRight (s.shiftOperand x y)))

/-- 8XY7: VF := (VY > VX), VX := VY − VX (R150, R141). -/
def exec8XY7 (x y : RegNo) (s : State) : Host.Outcome State Fault Refusal :=
  .next (s.writeFlagged x (subGreater (s.reg y) (s.reg x)))

/-- 8XYE: VF := bit 7 of the operand, VX := operand << 1 (R153, R141). -/
def exec8XYE (x y : RegNo) (s : State) : Host.Outcome State Fault Refusal :=
  .next (s.writeFlagged x (shiftLeft (s.shiftOperand x y)))

/-- CXNN: `V[X] <- RND AND NN`, RND the cycle's sample of the random input (R154, R34). -/
def execCXNN (x : RegNo) (nn : Byte) (s : State) : Host.Outcome State Fault Refusal :=
  .next (s.setReg x (s.env.inputs.rnd &&& nn))

end Sys2Proof.Machine
end

