-- ==== Sys2Proof/Machine/Control.lean ====
section
/-! DEFINITION. The control-transfer instructions 00EE, 1NNN, 2NNN, 3XNN, 4XNN, 5XY0, 9XY0, BNNN
(40_control_flow.md). Each runs with `PC` = a + 2 already (R120). -/

namespace Sys2Proof.Machine

/-- 00EE: `PC <- Pop()`; StackUnderflow on an empty stack (R123). -/
def exec00EE (s : State) : Host.Outcome State Fault Refusal :=
  answer .op00EE s s.popPc

/-- 1NNN: `PC <- zext_16(NNN)` (R124). -/
def exec1NNN (nnn : Addr12) (s : State) : Host.Outcome State Fault Refusal :=
  .next { s with pc := zextAddr nnn }

/-- 2NNN: push `PC` (a + 2), then `PC <- zext_16(NNN)`; StackOverflow when full (R125). -/
def exec2NNN (nnn : Addr12) (s : State) : Host.Outcome State Fault Refusal :=
  answer (.op2NNN nnn) s
    (match s.push s.pc with
      | .ok t => .ok { t with pc := zextAddr nnn }
      | .error k => .error k)

/-- 3XNN: skip when VX = NN (R126). -/
def exec3XNN (x : RegNo) (nn : Byte) (s : State) : Host.Outcome State Fault Refusal :=
  .next (s.skipIf (s.reg x == nn))

/-- 4XNN: skip when VX ≠ NN (R127). -/
def exec4XNN (x : RegNo) (nn : Byte) (s : State) : Host.Outcome State Fault Refusal :=
  .next (s.skipIf (s.reg x != nn))

/-- 5XY0: skip when VX = VY (R128). -/
def exec5XY0 (x y : RegNo) (s : State) : Host.Outcome State Fault Refusal :=
  .next (s.skipIf (s.reg x == s.reg y))

/-- 9XY0: skip when VX ≠ VY (R129). -/
def exec9XY0 (x y : RegNo) (s : State) : Host.Outcome State Fault Refusal :=
  .next (s.skipIf (s.reg x != s.reg y))

/-- BNNN: `PC <- zext_16(NNN) + zext_16(off)`, off V0 or, under JumpWeird, V[NNN[11:8]] (R130). -/
def execBNNN (nnn : Addr12) (s : State) : Host.Outcome State Fault Refusal :=
  .next { s with pc := zextAddr nnn + zextByte (s.jumpOffset nnn) }

end Sys2Proof.Machine
end

