-- ==== Sys2Proof/Machine/Display.lean ====
section
/-! DEFINITION. The display compositor and the display instructions 00E0 and DXYN (43_display.md). -/

namespace Sys2Proof.Machine

/-- The pixel buffer while a sprite is drawn, and the collision flag so far (R190). -/
structure Canvas where
  pix : Pixels
  collision : Bool
  deriving DecidableEq, Repr

/-- One processed pixel: XOR the sprite bit in; a set bit on a lit pixel collides (R190). -/
def Canvas.plot (c : Canvas) (x y : Nat) (b : Bool) : Canvas :=
  let old := c.pix.get x y
  ⟨c.pix.put x y (b ^^ old), c.collision || (b && old)⟩

/-- The bits of a sprite row from column `x` on; the row stops at the right edge (R190). -/
def Canvas.drawBits (c : Canvas) (x y : Nat) : List Bool → Canvas
  | [] => c
  | b :: bs => if 64 ≤ x then c else Canvas.drawBits (c.plot x y b) (x + 1) y bs

/-- A byte's bits, the most significant (leftmost) first (R190). -/
def spriteBits (b : Byte) : List Bool := (List.range 8).map fun i => b.getLsbD (7 - i)

/-- The rows from row `y` on; all rows stop at the bottom edge (R190). -/
def Canvas.drawRows (c : Canvas) (x y : Nat) : List Byte → Canvas
  | [] => c
  | r :: rs => if 32 ≤ y then c else Canvas.drawRows (c.drawBits x y (spriteBits r)) x (y + 1) rs

/-- `Composite(x0, y0, rows)` of R190: the buffer after the draw, and the collision flag. -/
def composite (p : Pixels) (x0 y0 : Nat) (rows : List Byte) : Canvas :=
  Canvas.drawRows ⟨p, false⟩ x0 y0 rows

/-- 00E0: every pixel unlit (R191). -/
def exec00E0 (s : State) : Host.Outcome State Fault Refusal :=
  .next { s with pix := Pixels.clear }

/-- DXYN: with the origin read first, `CheckRead(I, N)` when N > 0, then the draw, then VF := collision
(R192). -/
def execDXYN (x y : RegNo) (n : BitVec 4) (s : State) : Host.Outcome State Fault Refusal :=
  let check := if n.toNat = 0 then none else checkRead s.base n.toNat
  let drawn := composite s.pix (s.originX x) (s.originY y) (s.mem.readBytes s.base n.toNat)
  answer (.opDXYN x y n) s
    (guarded check { s.setReg vf (flagByte drawn.collision) with pix := drawn.pix })

end Sys2Proof.Machine
end

