-- ==== Sys2Proof/Machine/Index.lean ====
section
/-! DEFINITION. The index-register and memory instructions ANNN, FX1E, FX29, FX33, FX55, FX65
(42_index_memory.md). Each checks its whole access range before it changes anything (R68, R244). -/

namespace Sys2Proof.Machine

/-- ANNN: `I <- zext_16(NNN)` (R170). -/
def execANNN (nnn : Addr12) (s : State) : Host.Outcome State Fault Refusal :=
  .next { s with index := zextAddr nnn }

/-- FX1E: `I <- (I + VX) mod 65536`; under AddToIndexOverflow VF := (new I > 0xFFF) (R171). -/
def execFX1E (x : RegNo) (s : State) : Host.Outcome State Fault Refusal :=
  let newIndex := s.index + zextByte (s.reg x)
  let flagged := s.setReg vf (flagByte (indexOverflow newIndex))
  .next { s with
    index := newIndex
    v := if s.quirk.addToIndexOverflow then flagged.v else s.v }

/-- FX29: `I <- 0x050 + 5 × VX`; OutOfRangeKeyReference when VX > 0xF (R172). -/
def execFX29 (x : RegNo) (s : State) : Host.Outcome State Fault Refusal :=
  answer (.opFX29 x) s
    (match keyDigit (s.reg x) with
      | .ok d => .ok { s with index := glyphAddress d }
      | .error k => .error k)

/-- FX33: the decimal digits of VX to `MEM[I]`, `MEM[I+1]`, `MEM[I+2]` after `CheckWrite(I, 3)` (R173). -/
def execFX33 (x : RegNo) (s : State) : Host.Outcome State Fault Refusal :=
  answer (.opFX33 x) s
    (guarded (checkWrite s.base 3)
      { s with mem := s.mem.writeBytes s.base (decimalDigits (s.reg x)) })

/-- FX55: V0 to VX to `MEM[I]`, … after `CheckWrite(I, X + 1)`, then the update of `I` (R174). -/
def execFX55 (x : RegNo) (s : State) : Host.Outcome State Fault Refusal :=
  answer (.opFX55 x) s
    (guarded (checkWrite s.base (blockCount x))
      { s with mem := s.mem.writeBytes s.base (s.regsTo x), index := s.blockIndex x })

/-- FX65: V0 to VX from `MEM[I]`, … after `CheckRead(I, X + 1)`, then the update of `I` (R175). -/
def execFX65 (x : RegNo) (s : State) : Host.Outcome State Fault Refusal :=
  answer (.opFX65 x) s
    (guarded (checkRead s.base (blockCount x))
      { s with
        v := loadFrom s.v 0 (s.mem.readBytes s.base (blockCount x))
        index := s.blockIndex x })

end Sys2Proof.Machine
end

