-- ==== Sys2Proof/Machine/Keypad.lean ====
section
/-! DEFINITION. The keypad and timer instructions EX9E, EXA1, FX0A, FX07, FX15, FX18 (44_keypad_timers.md).
The input signals are the cycle's sample of them (R34). -/

namespace Sys2Proof.Machine

/-- EX9E: skip when key VX is down; OutOfRangeKeyReference when VX > 0xF (R200). -/
def execEX9E (x : RegNo) (s : State) : Host.Outcome State Fault Refusal :=
  answer (.opEX9E x) s
    (match keyDigit (s.reg x) with
      | .ok k => .ok (s.skipIf (keyIsDown s.env.inputs k))
      | .error e => .error e)

/-- EXA1: skip when key VX is not down; OutOfRangeKeyReference when VX > 0xF (R201). -/
def execEXA1 (x : RegNo) (s : State) : Host.Outcome State Fault Refusal :=
  answer (.opEXA1 x) s
    (match keyDigit (s.reg x) with
      | .ok k => .ok (s.skipIf (!keyIsDown s.env.inputs k))
      | .error e => .error e)

/-- FX07: `V[X] <- DT` (R203). -/
def execFX07 (x : RegNo) (s : State) : Host.Outcome State Fault Refusal :=
  .next (s.setReg x s.dt)

/-- FX0A: `V[X] <- k` when a key k is reported; else `PC <- (PC - 2) mod 65536`, back to this instruction, so
that the next cycle polls again (R202). -/
def execFX0A (x : RegNo) (s : State) : Host.Outcome State Fault Refusal :=
  .next (match s.env.inputs.keyLatest with
    | some k => s.setReg x (BitVec.ofNat 8 k.val)
    | none => { s with pc := s.pc - 2 })

/-- FX15: `DT <- V[X]` (R204). -/
def execFX15 (x : RegNo) (s : State) : Host.Outcome State Fault Refusal :=
  .next { s with dt := s.reg x }

/-- FX18: `ST <- V[X]` (R205). -/
def execFX18 (x : RegNo) (s : State) : Host.Outcome State Fault Refusal :=
  .next { s with st := s.reg x }

end Sys2Proof.Machine
end

