-- ==== Sys2Proof/Machine/Cycle.lean ====
section
/-! DEFINITION. One cycle of the execution agent (R120): fetch, advance, validate, decode, execute, TONE. -/

namespace Sys2Proof.Machine

/-- The end of a cycle: `TONE <- (ST != 0)` where the execute stage completed; a cycle that raised a fault ends
where it was raised and does not update TONE (R120, R235). -/
def State.complete (s : State) : State :=
  { s with tone := if s.halt then s.tone else s.st != 0 }

/-- The end of a cycle, over what the execute stage answered. -/
def finishCycle (r : Host.Outcome State Fault Refusal) : Host.Outcome State Fault Refusal :=
  match r with
  | .next t => .next t.complete
  | .fault f => .fault f
  | .refused f => .refused f

/-- `PC <- (a + 2) mod 65536`, before decode (R120). -/
def State.advance (s : State) : State := { s with pc := s.pc + 2 }

/-- Validate, decode and execute the word `w` fetched at `PC`, which is then advanced (R120, R221). -/
def runWord (w : Word) (s : State) : Host.Outcome State Fault Refusal :=
  match decode w with
  | .ok i => finishCycle (exec i s.advance)
  | .error _ => .next (s.advance.raise .invalidInstruction s.pc (some w))

/-- `Cycle()` of R120. A fetch outside memory raises before `PC` is advanced and records no word (R224). -/
def cycle (s : State) : Host.Outcome State Fault Refusal :=
  match fetchWord s.mem s.pc.toNat with
  | .error k => .next (s.raise k s.pc none)
  | .ok w => runWord w s

/-- The state a cycle starts from: its sample of the input signals is there, and no load is allowed any more
(R34, R261). -/
def State.begin (s : State) (signals : Inputs) : State :=
  { s with env := { s.env with inputs := signals, loadable := false } }

/-- One event. A cycle and a tick are enabled only while HALT = 0 (R120, R233, R229); a load only after reset
and before the first cycle, once (R261, R264); a reset always (R260). -/
def runEvent (e : Event) (s : State) : Host.Outcome State Fault Refusal :=
  match e with
  | .cycle signals => if s.halt then .fault .halted else cycle (s.begin signals)
  | .tick => if s.halt then .fault .halted else .next s.tick
  | .reset quirkIn => .next (s.hostReset quirkIn)
  | .load image => if s.env.loadable then .next (s.hostLoad image) else .refused .loadNotAllowed

/-- `s` with bytes stored where the next cycle fetches, and a cycle as the very next event. -/
def State.placeAtPc (s : State) (bytes : List Byte) : State :=
  { s with
    mem := s.mem.writeBytes s.pc.toNat bytes
    env := { s.env with schedule := .cycle s.env.inputs :: s.env.schedule } }

end Sys2Proof.Machine
end

