-- ==== Sys2Proof/Machine/Step.lean ====
section
/-! DEFINITION. One step of the machine: one step of one agent, or one host action (R8, R9). -/

namespace Sys2Proof.Machine

/-- One step: take the next event and run it. -/
def step (s : State) : Host.Outcome State Fault Refusal :=
  runEvent s.nextEvent s.dropEvent

/-- `s` with the instruction whose bits are `w` (numbered as spec/opcode_table.json numbers them) stored at
`PC`, high byte first, and a cycle as the next event, so that the very next step runs it (log 7). -/
def State.withFetchWord (s : State) (nbits w : Nat) : State :=
  s.placeAtPc (tableBytes nbits w)

end Sys2Proof.Machine
end

