-- ==== Sys2Proof/Safety.lean ====
section
/-! DEFINITION. The terms in which statements about the machine are made: what a transition leaves unchanged,
what raising a fault means, what a reset state is, and the invariant every step keeps. -/

namespace Sys2Proof.Machine

/-! ## Frames -/

/-- The parts of the state a transition may leave alone. -/
inductive Part where
  /-- V0 to VF -/
  | regs
  /-- `I` -/
  | index
  /-- `PC` -/
  | pc
  /-- `STACK` and `SP` -/
  | stack
  /-- `DT` -/
  | delay
  /-- `ST` -/
  | sound
  /-- `QUIRK` -/
  | quirk
  /-- `PIX` -/
  | pixels
  /-- `MEM` -/
  | memory
  /-- `HALT` and `FAULT` -/
  | fault
  /-- `TONE` -/
  | tone
  /-- the model's surroundings -/
  | env
  deriving DecidableEq, Repr

/-- The part is the same after (`t`) as before (`s`). Memory is compared through the read of one byte. -/
def Part.same (s t : State) : Part → Prop
  | .regs => ∀ r, t.reg r = s.reg r
  | .index => t.index = s.index
  | .pc => t.pc = s.pc
  | .stack => t.stack = s.stack ∧ t.spFree = s.spFree
  | .delay => t.dt = s.dt
  | .sound => t.st = s.st
  | .quirk => t.quirk = s.quirk
  | .pixels => ∀ x y, t.pix.get x y = s.pix.get x y
  | .memory => ∀ a, t.mem.read a = s.mem.read a
  | .fault => t.halt = s.halt ∧ t.fault = s.fault
  | .tone => t.tone = s.tone
  | .env => t.env = s.env

/-- Every part but the listed ones is unchanged. -/
def Unchanged (changed : List Part) (s t : State) : Prop := ∀ p, p ∉ changed → Part.same s t p

/-- Every general register but those in `changed` is unchanged. -/
def RegsKept (changed : RegNo → Prop) (s t : State) : Prop := ∀ r, ¬ changed r → t.reg r = s.reg r

/-- Every byte of memory outside the `n` bytes from `base` is unchanged. -/
def MemKept (base n : Nat) (s t : State) : Prop :=
  ∀ a, (a < base ∨ base + n ≤ a) → t.mem.read a = s.mem.read a

/-! ## Outcomes of an instruction -/

/-- In state `s` the instruction `i` raises `k` and does nothing else: HALT is set and FAULT is written with the
kind, the fetch address and the word (R220, R243, R244). -/
def RaisesOnly (i : Instr) (k : FaultKind) (s : State) : Prop :=
  ∃ t, exec i s = .next t ∧ t.halt = true ∧ t.fault = some ⟨k, s.pc - 2, some (encode i)⟩ ∧
    Unchanged [.fault] s t

/-- `i` writes the flag to VF, then `value` to V[x], and nothing else (R141): with x = F the result stays. -/
def WritesFlagged (i : Instr) (x : RegNo) (value : Nat) (flag : Prop) [Decidable flag] (s : State) : Prop :=
  ∃ t, exec i s = .next t ∧ (t.reg x).toNat = value ∧
    (x ≠ 0xF → t.reg 0xF = if flag then 1 else 0) ∧
    RegsKept (fun r => r = x ∨ r = 0xF) s t ∧ Unchanged [.regs] s t

/-- `i` writes `value` to V[x] and nothing else. -/
def WritesReg (i : Instr) (x : RegNo) (value : Byte) (s : State) : Prop :=
  ∃ t, exec i s = .next t ∧ t.reg x = value ∧ RegsKept (fun r => r = x) s t ∧ Unchanged [.regs] s t

/-- `i` skips the next instruction exactly when `c` holds, and does nothing else (R122). -/
def SkipsIff (i : Instr) (c : Prop) [Decidable c] (s : State) : Prop :=
  ∃ t, exec i s = .next t ∧ t.pc = (if c then s.pc + 2 else s.pc) ∧ Unchanged [.pc] s t

/-! ## Sprites -/

/-- Pixel (x, y) is under a set bit of the sprite of `n` rows whose top left corner is at (x0, y0): row `j` lies
on screen row y0 + j, its bit 7 at column x0 (R190). -/
def spriteCovers (row : Nat → Byte) (n x0 y0 x y : Nat) : Bool :=
  decide (x0 ≤ x ∧ x < x0 + 8 ∧ y0 ≤ y ∧ y < y0 + n) && (row (y - y0)).getLsbD (7 - (x - x0))

/-- The sprite row at `MEM[I + j]` (R192). -/
def State.spriteRow (s : State) (j : Nat) : Byte := s.mem.read (s.index.toNat + j)

/-! ## Reset -/

/-- The state is the reset state of R37 with `QUIRK` = `q`. -/
def IsResetState (q : Quirk) (t : State) : Prop :=
  (∀ r, t.reg r = 0) ∧ t.index = 0 ∧ t.pc = 0 ∧ t.sp = 15 ∧ (∀ k : Fin 16, t.stack[k] = 0) ∧
    t.dt = 0 ∧ t.st = 0 ∧ (∀ x y, t.pix.get x y = false) ∧
    (∀ k : Fin 80, t.mem.read (0x050 + k.val) = Config.font k) ∧
    (∀ a, (a < 0x050 ∨ 0x09F < a) → t.mem.read a = 0) ∧
    t.quirk = q ∧ t.halt = false ∧ t.fault = none ∧ t.tone = false

/-! ## The invariant -/

/-- What every step keeps: memory is canonical, the font table is as it was made, `PC` and every return address
are in the range R24 gives, HALT and FAULT go together (R33), and a halted machine takes no load. -/
structure Inv (s : State) : Prop where
  memWf : s.mem.wf
  fontIntact : s.mem.fontIntact
  pcRange : s.pc.toNat ≤ 0x10FE
  returnRange : ∀ k : Fin 16, (s.stack[k]).toNat ≤ 0x1000
  haltFault : s.halt = s.fault.isSome
  loadRunning : s.env.loadable = true → s.halt = false

end Sys2Proof.Machine
end

