-- ==== Sys2Proof/Certificates/Slice0/Obligations.lean ====
section
/-! DEFINITION. The statements for the provers. Each docstring names the rules of spec/ it formalises; a
statement that rests on a decision (D<n>) or a derivation the spec marks as its own says so. -/

open Sys2Proof Sys2Proof.Machine

/-! ## Encoding -/

/-- R91, R92, R95: the decoder reads every instruction's own word back, every operand at every value. -/
def Obligations.DecodeEncodeRoundTrip : Prop := ∀ i : Instr, decode (encode i) = .ok i

/-- R95, R102: a decoded word is the word of the instruction it decodes to, so no two words mean the same and no
bit is dropped. -/
def Obligations.DecodedWordIsItsEncoding : Prop := ∀ (w : Word) (i : Instr), decode w = .ok i → encode i = w

/-- R94, R96: the decoder accepts exactly the words of Valid and rejects every other word by name. -/
def Obligations.DecoderAcceptsExactlyValid : Prop :=
  ∀ w : Word, (validWord w = true ↔ ∃ i, decode w = .ok i) ∧
    (validWord w = false → decode w = .error (.invalidInstruction w))

/-- R95 (derived there): the 34 patterns are pairwise disjoint and their union is the set Valid accepts. -/
def Obligations.OpcodeRowsDisjointAndComplete : Prop :=
  opcodeTable.length = 34 ∧
    opcodeTable.Pairwise (fun r q => ∀ w, ¬ (r.matches w = true ∧ q.matches w = true)) ∧
    ∀ w, validWord w = true ↔ ∃ r ∈ opcodeTable, r.matches w = true

/-- R95: the word of an instruction matches its own row of the opcode map and no other. -/
def Obligations.EncodingMatchesItsRowOnly : Prop :=
  ∀ (i : Instr), (∃ r ∈ opcodeTable, r.mnemonic = mnemonic i) ∧
    ∀ r ∈ opcodeTable, (r.matches (encode i) = true ↔ r.mnemonic = mnemonic i)

/-- R102's example and words of 95_test_vectors.md part 2.1, one of each format. -/
def Obligations.SampleWordsDecode : Prop :=
  decode 0x8AB4 = .ok (.op8XY4 0xA 0xB) ∧ decode 0x00EE = .ok .op00EE ∧ decode 0x1FFF = .ok (.op1NNN 0xFFF) ∧
    decode 0x6A55 = .ok (.op6XNN 0xA 0x55) ∧ decode 0xDFF1 = .ok (.opDXYN 0xF 0xF 0x1) ∧
    decode 0xF165 = .ok (.opFX65 0x1) ∧ decode 0x5121 = .error (.invalidInstruction 0x5121)

/-! ## The cycle -/

/-- R120: a cycle of a running machine whose fetched word decodes to `i` is `i`'s execution with `PC` advanced,
then the TONE update where the execution completed. Around exec stand only the model's own surroundings: the
event is taken, the cycle's input sample is in place, and no load is allowed any more (log 3, log 4, log 5). -/
def Obligations.StepRunsDecodedInstruction : Prop :=
  ∀ (s : State) (signals : Inputs) (i : Instr),
    s.halt = false → s.nextEvent = .cycle signals → s.pc.toNat ≤ 0xFFE →
    decode (wordOfBytes (s.mem.read s.pc.toNat) (s.mem.read (s.pc.toNat + 1))) = .ok i →
    ∃ t, exec i { s with
        pc := s.pc + 2
        env := { s.dropEvent.env with inputs := signals, loadable := false } } = .next t ∧
      step s = .next { t with tone := if t.halt then t.tone else t.st != 0 }

/-- R63: the fetch is big-endian from two consecutive bytes, at odd addresses too (R65, D6). -/
def Obligations.FetchIsBigEndian : Prop :=
  ∀ (m : Memory) (a : Nat), a ≤ 0xFFE →
    ∃ w, fetchWord m a = .ok w ∧ w.extractLsb' 8 8 = m.read a ∧ w.extractLsb' 0 8 = m.read (a + 1)

/-- R221: an invalid word halts the machine with code 1, the word and the fetch address; `PC` = a + 2, all other
state is as before and TONE is not updated. -/
def Obligations.InvalidWordHalts : Prop :=
  ∀ (s : State) (signals : Inputs),
    s.halt = false → s.nextEvent = .cycle signals → s.pc.toNat ≤ 0xFFE →
    validWord (wordOfBytes (s.mem.read s.pc.toNat) (s.mem.read (s.pc.toNat + 1))) = false →
    ∃ t, step s = .next t ∧ t.halt = true ∧
      t.fault = some ⟨.invalidInstruction, s.pc,
        some (wordOfBytes (s.mem.read s.pc.toNat) (s.mem.read (s.pc.toNat + 1)))⟩ ∧
      t.faultCode = 1 ∧ t.pc = s.pc + 2 ∧ Unchanged [.pc, .fault, .env] s t

/-- 60_exceptions.md R224 and 20_memory.md R66, decision D1: a fetch above 0xFFE halts before `PC` moves and
records no word. -/
def Obligations.FetchAboveMemoryHalts : Prop :=
  ∀ (s : State) (signals : Inputs),
    s.halt = false → s.nextEvent = .cycle signals → 0xFFE < s.pc.toNat →
    ∃ t, step s = .next t ∧ t.halt = true ∧
      t.fault = some ⟨.addressOutOfRange s.pc.toNat 2, s.pc, none⟩ ∧ t.faultCode = 4 ∧
      Unchanged [.fault, .env] s t

/-- 60_exceptions.md R229, decision D13: while HALT = 1 neither a cycle nor a tick has a step. -/
def Obligations.HaltedMachineHasNoStep : Prop :=
  ∀ s : State, s.halt = true →
    (s.nextEvent = .tick ∨ ∃ signals, s.nextEvent = .cycle signals) → step s = .fault .halted

/-- 60_exceptions.md R229 and R230 with decision D13: no instruction clears HALT or FAULT; a halted machine has no
cycle; and its only step is a reset, which discards the whole machine state. That a tick is shut out too is R229
with D13, the spec's own choice (log 14); that a load is shut out rests on the model's own permission bit, through
`Inv.loadRunning` (log 5). -/
def Obligations.OnlyResetLeavesHalt : Prop :=
  (∀ (i : Instr) (s t : State), exec i s = .next t →
      (s.halt = true → t.halt = true) ∧ (s.fault.isSome = true → t.fault.isSome = true)) ∧
    (∀ (s : State) (signals : Inputs), s.halt = true → s.nextEvent = .cycle signals → step s = .fault .halted) ∧
    ∀ s t : State, Inv s → s.halt = true → step s = .next t →
      ∃ q, s.nextEvent = .reset q ∧ IsResetState q t

/-- 60_exceptions.md R235, decision D12: TONE is (ST != 0) after every completed cycle, and keeps its value in a
cycle that faults and in a tick. -/
def Obligations.ToneFollowsSoundTimer : Prop :=
  (∀ (s t : State) (signals : Inputs), s.halt = false → s.nextEvent = .cycle signals → step s = .next t →
      t.tone = if t.halt then s.tone else t.st != 0) ∧
    ∀ s t : State, s.nextEvent = .tick → step s = .next t → t.tone = s.tone

/-- R233: a tick of a running machine decrements both timers toward 0 and changes nothing else; a halted machine
has no tick. -/
def Obligations.TickCountsDown : Prop :=
  ∀ s : State, s.nextEvent = .tick →
    (s.halt = true → step s = .fault .halted) ∧
    (s.halt = false → ∃ t, step s = .next t ∧ t.dt.toNat = s.dt.toNat - 1 ∧ t.st.toNat = s.st.toNat - 1 ∧
      Unchanged [.delay, .sound, .env] s t)

/-- R234: after N ticks a timer that started at T is max(0, T − N). -/
def Obligations.TicksSaturate : Prop :=
  ∀ (n : Nat) (s : State), ((State.tick)^[n] s).dt.toNat = max 0 ((s.dt.toNat : Int) - n) ∧
    ((State.tick)^[n] s).st.toNat = max 0 ((s.st.toNat : Int) - n)

/-! ## Reset, load, run -/

/-- R37: the state after a host reset with QUIRK_IN = q, and the state the model starts from. -/
def Obligations.ResetGivesTheResetState : Prop :=
  IsResetState Config.quirkIn State.reset ∧
    ∀ (s : State) (q : Quirk), s.nextEvent = .reset q → ∃ t, step s = .next t ∧ IsResetState q t

/-- 70_reset_and_hazards.md R261, decision D14: the one load after a reset copies the image to 0x200, sets `PC`
to 0x200 and changes nothing else. -/
def Obligations.LoadPlacesTheImage : Prop :=
  ∀ (s : State) (image : List Byte), s.mem.wf → s.env.loadable = true → s.nextEvent = .load (some image) →
    image.length ≤ 3584 →
    ∃ t, step s = .next t ∧ t.pc = 0x200 ∧
      (∀ k (h : k < image.length), t.mem.read (0x200 + k) = image[k]) ∧
      MemKept 0x200 image.length s t ∧ Unchanged [.pc, .memory, .env] s t

/-- 60_exceptions.md R223, decision D14: a load that cannot be supplied or does not fit sets HALT with code 3 and
leaves the rest as it was; the recorded address is `PC` (the model's choice, log 6). -/
def Obligations.FailedLoadHalts : Prop :=
  ∀ (s : State) (image : Option (List Byte)), s.env.loadable = true → s.nextEvent = .load image →
    (∀ bytes, image = some bytes → 3584 < bytes.length) →
    ∃ t, step s = .next t ∧ t.halt = true ∧ t.fault = some ⟨.programLoadFailure, s.pc, none⟩ ∧
      t.faultCode = 3 ∧ Unchanged [.fault, .env] s t

/-- 70_reset_and_hazards.md R261 and R264, decision D14, item U16: a load is allowed once after a reset and before
the first cycle; the model refuses any other. The permission is allowed at State.reset and after every host reset, a
tick leaves it as it was, and a cycle or a load takes it away; the bit that holds it is the model's own (log 5). -/
def Obligations.LateLoadIsRefused : Prop :=
  (∀ (s : State) (image : Option (List Byte)), s.env.loadable = false → s.nextEvent = .load image →
      step s = .refused .loadNotAllowed) ∧
    (∀ s t : State, step s = .next t → (∀ q, s.nextEvent ≠ .reset q) → s.nextEvent ≠ .tick →
      t.env.loadable = false) ∧
    (∀ s t : State, step s = .next t → s.nextEvent = .tick → t.env.loadable = s.env.loadable) ∧
    State.reset.env.loadable = true ∧
    ∀ (s t : State) (q : Quirk), step s = .next t → s.nextEvent = .reset q → t.env.loadable = true

/-- 70_reset_and_hazards.md R266 (derived there), decision D21: a machine started without a load faults in its first
cycle. That the first step from State.reset is a cycle is the model's choice: its schedule is empty there, and with
both timers at 0 the free choice is a cycle (log 3). -/
def Obligations.RunWithoutLoadHalts : Prop :=
  ∃ t, step State.reset = .next t ∧ t.halt = true ∧ t.pc = 0x0002 ∧
    t.fault = some ⟨.invalidInstruction, 0x0000, some 0x0000⟩

/-- 70_reset_and_hazards.md R267, decision D24: a cycle of a jump to itself leaves all state unchanged but TONE. -/
def Obligations.SelfJumpChangesNothing : Prop :=
  ∀ (s : State) (signals : Inputs) (nnn : Addr12),
    s.halt = false → s.nextEvent = .cycle signals → s.pc = nnn.setWidth 16 → s.pc.toNat ≤ 0xFFE →
    wordOfBytes (s.mem.read s.pc.toNat) (s.mem.read (s.pc.toNat + 1)) = encode (.op1NNN nnn) →
    ∃ t, step s = .next t ∧ t.tone = (s.st != 0) ∧ Unchanged [.tone, .env] s t

/-! ## Control transfer -/

/-- 40_control_flow.md R123 with the guard of decision D2: the newest entry into `PC`, or StackUnderflow. -/
def Obligations.ReturnPopsTheStack : Prop :=
  ∀ s : State, (s.sp = 15 → RaisesOnly .op00EE .stackUnderflow s) ∧
    ∀ h : s.spFree.val < 16, ∃ t, exec .op00EE s = .next t ∧ t.pc = s.stack[s.spFree.val] ∧
      t.sp = s.sp + 1 ∧ t.stack = s.stack ∧ Unchanged [.pc, .stack] s t

/-- R124: `PC` := NNN, any NNN; nothing else changes. -/
def Obligations.JumpSetsPc : Prop :=
  ∀ (nnn : Addr12) (s : State), encode (.op1NNN nnn) = 0x1#4 ++ nnn ∧
    ∃ t, exec (.op1NNN nnn) s = .next t ∧ t.pc.toNat = nnn.toNat ∧ Unchanged [.pc] s t

/-- 40_control_flow.md R125 with the guard of decision D2: the advanced `PC` into STACK[SP], SP down by one, `PC`
:= NNN, or StackOverflow when 16 entries are in use. -/
def Obligations.CallPushesTheReturnAddress : Prop :=
  ∀ (nnn : Addr12) (s : State), (s.sp = -1 → RaisesOnly (.op2NNN nnn) .stackOverflow s) ∧
    (s.sp ≠ -1 → ∃ t, exec (.op2NNN nnn) s = .next t ∧ t.pc.toNat = nnn.toNat ∧ t.sp = s.sp - 1 ∧
      (∀ k : Fin 16, t.stack[k] = if (k.val : Int) = s.sp then s.pc else s.stack[k]) ∧
      Unchanged [.pc, .stack] s t)

/-- 40_control_flow.md R123 and R125: a return after a call goes to the address after the call, and the stack
depth is what it was. -/
def Obligations.ReturnUndoesCall : Prop :=
  ∀ (nnn : Addr12) (s t : State), exec (.op2NNN nnn) s = .next t → s.halt = false → t.halt = false →
    ∃ u, exec .op00EE t = .next u ∧ u.pc = s.pc ∧ u.sp = s.sp ∧ Unchanged [.stack] s u

/-- R126, R127: skip when VX equals, or differs from, the immediate. -/
def Obligations.ImmediateSkips : Prop :=
  ∀ (x : RegNo) (nn : Byte) (s : State),
    encode (.op3XNN x nn) = 0x3#4 ++ x ++ nn ∧ encode (.op4XNN x nn) = 0x4#4 ++ x ++ nn ∧
    SkipsIff (.op3XNN x nn) (s.reg x = nn) s ∧ SkipsIff (.op4XNN x nn) (s.reg x ≠ nn) s

/-- R128, R129: skip when VX and VY are equal, or differ. -/
def Obligations.RegisterSkips : Prop :=
  ∀ (x y : RegNo) (s : State),
    encode (.op5XY0 x y) = 0x5#4 ++ x ++ y ++ 0x0#4 ∧ encode (.op9XY0 x y) = 0x9#4 ++ x ++ y ++ 0x0#4 ∧
    SkipsIff (.op5XY0 x y) (s.reg x = s.reg y) s ∧ SkipsIff (.op9XY0 x y) (s.reg x ≠ s.reg y) s

/-- R130: `PC` := NNN plus V0, or plus V[NNN[11:8]] under JumpWeird; the sum never wraps and is not masked. -/
def Obligations.IndexedJumpAddsTheRegister : Prop :=
  ∀ (nnn : Addr12) (s : State), encode (.opBNNN nnn) = 0xB#4 ++ nnn ∧
    ∃ t, exec (.opBNNN nnn) s = .next t ∧
      t.pc.toNat = nnn.toNat +
        (if s.quirk.jumpWeird then (s.reg (nnn.extractLsb' 8 4)).toNat else (s.reg 0).toNat) ∧
      Unchanged [.pc] s t

/-! ## Load, arithmetic, logic, shift, random -/

/-- R142, R143: VX := NN; VX := (VX + NN) mod 256 with no flag. -/
def Obligations.ImmediateLoadAndAdd : Prop :=
  ∀ (x : RegNo) (nn : Byte) (s : State),
    encode (.op6XNN x nn) = 0x6#4 ++ x ++ nn ∧ encode (.op7XNN x nn) = 0x7#4 ++ x ++ nn ∧
    WritesReg (.op6XNN x nn) x nn s ∧
    WritesReg (.op7XNN x nn) x (BitVec.ofNat 8 (((s.reg x).toNat + nn.toNat) % 256)) s

/-- R144, R145, R146, R147: move, OR, AND, XOR, bit by bit, and VF is left alone. -/
def Obligations.MoveAndLogic : Prop :=
  ∀ (x y : RegNo) (s : State),
    encode (.op8XY0 x y) = 0x8#4 ++ x ++ y ++ 0x0#4 ∧ encode (.op8XY1 x y) = 0x8#4 ++ x ++ y ++ 0x1#4 ∧
    encode (.op8XY2 x y) = 0x8#4 ++ x ++ y ++ 0x2#4 ∧ encode (.op8XY3 x y) = 0x8#4 ++ x ++ y ++ 0x3#4 ∧
    WritesReg (.op8XY0 x y) x (s.reg y) s ∧
    (∃ r, WritesReg (.op8XY1 x y) x r s ∧
      ∀ k, r.getLsbD k = ((s.reg x).getLsbD k || (s.reg y).getLsbD k)) ∧
    (∃ r, WritesReg (.op8XY2 x y) x r s ∧
      ∀ k, r.getLsbD k = ((s.reg x).getLsbD k && (s.reg y).getLsbD k)) ∧
    (∃ r, WritesReg (.op8XY3 x y) x r s ∧
      ∀ k, r.getLsbD k = ((s.reg x).getLsbD k ^^ (s.reg y).getLsbD k))

/-- 41_load_alu.md R148 and R141 with decision D4: VX := (VX + VY) mod 256 and VF := 1 iff the true sum exceeds 255.
With X = F the result stays, and with Y = F the old VF is the operand: both are D4, the spec's own reading, DEDUCED
and unsafe (log 14). -/
def Obligations.AddSetsCarry : Prop :=
  ∀ (x y : RegNo) (s : State), encode (.op8XY4 x y) = 0x8#4 ++ x ++ y ++ 0x4#4 ∧
    WritesFlagged (.op8XY4 x y) x (((s.reg x).toNat + (s.reg y).toNat) % 256)
      ((s.reg x).toNat + (s.reg y).toNat > 255) s

/-- 41_load_alu.md R149, R150 and R141 with decision D4: VX := (VX − VY) mod 256 with VF := 1 iff VX > VY, and the
mirror. With X = F the result stays, and with Y = F the old VF is the operand: both are D4, the spec's own reading,
DEDUCED and unsafe (log 14). -/
def Obligations.SubtractSetsGreater : Prop :=
  ∀ (x y : RegNo) (s : State),
    encode (.op8XY5 x y) = 0x8#4 ++ x ++ y ++ 0x5#4 ∧ encode (.op8XY7 x y) = 0x8#4 ++ x ++ y ++ 0x7#4 ∧
    WritesFlagged (.op8XY5 x y) x ((256 + (s.reg x).toNat - (s.reg y).toNat) % 256)
      ((s.reg x).toNat > (s.reg y).toNat) s ∧
    WritesFlagged (.op8XY7 x y) x ((256 + (s.reg y).toNat - (s.reg x).toNat) % 256)
      ((s.reg y).toNat > (s.reg x).toNat) s

/-- 41_load_alu.md R151, R152, R153 and R141 with decision D4: one-place logical shifts of VX, or of VY under
ShiftUseVY; VF := the bit shifted out, a zero enters. With X = F the result stays, and with Y = F the old VF is the
operand: both are D4, the spec's own reading, DEDUCED and unsafe (log 14). -/
def Obligations.ShiftsMoveOneBit : Prop :=
  ∀ (x y : RegNo) (s : State) (t : Nat),
    t = (if s.quirk.shiftUseVY then (s.reg y).toNat else (s.reg x).toNat) →
    encode (.op8XY6 x y) = 0x8#4 ++ x ++ y ++ 0x6#4 ∧ encode (.op8XYE x y) = 0x8#4 ++ x ++ y ++ 0xE#4 ∧
    WritesFlagged (.op8XY6 x y) x (t / 2) (t % 2 = 1) s ∧
    WritesFlagged (.op8XYE x y) x (t * 2 % 256) (128 ≤ t) s

/-- 41_load_alu.md R154, decision D9: VX := RND AND NN for whatever byte the input carries. -/
def Obligations.RandomIsMasked : Prop :=
  ∀ (x : RegNo) (nn : Byte) (s : State), encode (.opCXNN x nn) = 0xC#4 ++ x ++ nn ∧
    WritesReg (.opCXNN x nn) x (s.env.inputs.rnd &&& nn) s ∧
    ∀ t, exec (.opCXNN x nn) s = .next t → t.reg x &&& ~~~nn = 0

/-! ## Index register and memory -/

/-- R170: `I` := NNN. -/
def Obligations.IndexLoadsImmediate : Prop :=
  ∀ (nnn : Addr12) (s : State), encode (.opANNN nnn) = 0xA#4 ++ nnn ∧
    ∃ t, exec (.opANNN nnn) s = .next t ∧ t.index.toNat = nnn.toNat ∧ Unchanged [.index] s t

/-- 42_index_memory.md R171 with the 16-bit wrap of decision D22: `I` := I + VX; VF tells whether the new `I` is
above 0xFFF under AddToIndexOverflow, and is left alone without it. -/
def Obligations.IndexAddsRegister : Prop :=
  ∀ (x : RegNo) (s : State), encode (.opFX1E x) = 0xF#4 ++ x ++ 0x1E#8 ∧
    ∃ t, exec (.opFX1E x) s = .next t ∧ t.index.toNat = (s.index.toNat + (s.reg x).toNat) % 65536 ∧
      (s.quirk.addToIndexOverflow = true → t.reg 0xF = if t.index.toNat > 0xFFF then 1 else 0) ∧
      (s.quirk.addToIndexOverflow = false → t.reg 0xF = s.reg 0xF) ∧
      RegsKept (fun r => r = 0xF) s t ∧ Unchanged [.regs, .index] s t

/-- R172: `I` := 0x050 + 5 × VX for a hexadecimal digit; any other value raises OutOfRangeKeyReference carrying
it. -/
def Obligations.GlyphAddressOrFault : Prop :=
  ∀ (x : RegNo) (s : State), encode (.opFX29 x) = 0xF#4 ++ x ++ 0x29#8 ∧
    ((s.reg x).toNat ≤ 0xF → ∃ t, exec (.opFX29 x) s = .next t ∧
      t.index.toNat = 0x050 + 5 * (s.reg x).toNat ∧ Unchanged [.index] s t) ∧
    (0xF < (s.reg x).toNat → RaisesOnly (.opFX29 x) (.outOfRangeKeyReference (s.reg x)) s)

/-- 42_index_memory.md R173 with the faults of decisions D1 and D3: the three decimal digits at I, I + 1, I + 2. That
a range above 0xFFF (D1) or one that meets the font table (D3) faults with nothing written is the spec's own choice,
DEDUCED (log 14). -/
def Obligations.DecimalDigitsStored : Prop :=
  ∀ (x : RegNo) (s : State), encode (.opFX33 x) = 0xF#4 ++ x ++ 0x33#8 ∧
    (0xFFF < s.index.toNat + 2 → RaisesOnly (.opFX33 x) (.addressOutOfRange s.index.toNat 3) s) ∧
    (s.index.toNat ≤ 0x09F → 0x050 ≤ s.index.toNat + 2 →
      RaisesOnly (.opFX33 x) (.fontTableWrite s.index.toNat) s) ∧
    (s.mem.wf → s.index.toNat + 2 ≤ 0xFFF → (0x09F < s.index.toNat ∨ s.index.toNat + 2 < 0x050) →
      ∃ t, exec (.opFX33 x) s = .next t ∧
        (t.mem.read s.index.toNat).toNat = (s.reg x).toNat / 100 ∧
        (t.mem.read (s.index.toNat + 1)).toNat = (s.reg x).toNat / 10 % 10 ∧
        (t.mem.read (s.index.toNat + 2)).toNat = (s.reg x).toNat % 10 ∧
        MemKept s.index.toNat 3 s t ∧ Unchanged [.memory] s t)

/-- 42_index_memory.md R174 with the faults of decisions D1 and D3: V0 to VX at I, I + 1, …, then `I` advanced by
X + 1 under MemChangeIndex. That a range above 0xFFF (D1) or one that meets the font table (D3) faults with nothing
written is the spec's own choice, DEDUCED (log 14). -/
def Obligations.RegistersStored : Prop :=
  ∀ (x : RegNo) (s : State), encode (.opFX55 x) = 0xF#4 ++ x ++ 0x55#8 ∧
    (0xFFF < s.index.toNat + x.toNat →
      RaisesOnly (.opFX55 x) (.addressOutOfRange s.index.toNat (x.toNat + 1)) s) ∧
    (s.index.toNat ≤ 0x09F → 0x050 ≤ s.index.toNat + x.toNat →
      RaisesOnly (.opFX55 x) (.fontTableWrite s.index.toNat) s) ∧
    (s.mem.wf → s.index.toNat + x.toNat ≤ 0xFFF → (0x09F < s.index.toNat ∨ s.index.toNat + x.toNat < 0x050) →
      ∃ t, exec (.opFX55 x) s = .next t ∧
        (∀ r : RegNo, r ≤ x → t.mem.read (s.index.toNat + r.toNat) = s.reg r) ∧
        t.index.toNat = (if s.quirk.memChangeIndex then s.index.toNat + x.toNat + 1 else s.index.toNat) ∧
        MemKept s.index.toNat (x.toNat + 1) s t ∧ Unchanged [.memory, .index] s t)

/-- 42_index_memory.md R175 with the fault of decision D1: V0 to VX from I, I + 1, …, then `I` advanced by X + 1 under
MemChangeIndex; and what FX55 stored comes back, whatever the registers hold in between. That a range above 0xFFF
faults with no register changed is D1, and that a store which meets the font table faults, the case the round trip
leaves out, is D3: both are the spec's own choices, DEDUCED (log 14). -/
def Obligations.RegistersLoaded : Prop :=
  ∀ (x : RegNo) (s : State), encode (.opFX65 x) = 0xF#4 ++ x ++ 0x65#8 ∧
    (0xFFF < s.index.toNat + x.toNat →
      RaisesOnly (.opFX65 x) (.addressOutOfRange s.index.toNat (x.toNat + 1)) s) ∧
    (s.index.toNat + x.toNat ≤ 0xFFF →
      ∃ t, exec (.opFX65 x) s = .next t ∧
        (∀ r : RegNo, r ≤ x → t.reg r = s.mem.read (s.index.toNat + r.toNat)) ∧
        t.index.toNat = (if s.quirk.memChangeIndex then s.index.toNat + x.toNat + 1 else s.index.toNat) ∧
        RegsKept (fun r => r ≤ x) s t ∧ Unchanged [.regs, .index] s t) ∧
    (∀ (t : State) (v : Vector Byte 16), s.mem.wf → exec (.opFX55 x) s = .next t → s.halt = false → t.halt = false →
      ∃ u, exec (.opFX65 x) { t with v := v, index := s.index } = .next u ∧
        ∀ r : RegNo, r ≤ x → u.reg r = s.reg r)

/-! ## Display -/

/-- R191: every pixel unlit, VF and all else unchanged. -/
def Obligations.ClearUnlightsEveryPixel : Prop :=
  encode .op00E0 = 0x00E0 ∧ ∀ s : State, ∃ t, exec .op00E0 s = .next t ∧
    (∀ x y, t.pix.get x y = false) ∧ Unchanged [.pixels] s t

/-- R190: the compositor XORs exactly the pixels under a set sprite bit, clipped at the right and bottom edges, and
reports a collision exactly when one of them was lit. -/
def Obligations.CompositeXorsAndCollides : Prop :=
  ∀ (p : Pixels) (x0 y0 : Nat) (rows : List Byte), x0 < 64 → y0 < 32 →
    (∀ x y, x < 64 → y < 32 → (composite p x0 y0 rows).pix.get x y =
      (spriteCovers (fun j => rows.getD j 0) rows.length x0 y0 x y ^^ p.get x y)) ∧
    ((composite p x0 y0 rows).collision = true ↔ ∃ x y, x < 64 ∧ y < 32 ∧
      spriteCovers (fun j => rows.getD j 0) rows.length x0 y0 x y = true ∧ p.get x y = true)

/-- 43_display.md R192 with the range check of decision D16: the sprite at I drawn at (VX mod 64, VY mod 32), VF
:= 1 iff a set bit met a lit pixel, always written; a range above 0xFFF faults with nothing drawn. -/
def Obligations.DrawXorsTheSprite : Prop :=
  ∀ (x y : RegNo) (n : BitVec 4) (s : State), encode (.opDXYN x y n) = 0xD#4 ++ x ++ y ++ n ∧
    (0 < n.toNat → 0xFFF < s.index.toNat + n.toNat - 1 →
      RaisesOnly (.opDXYN x y n) (.addressOutOfRange s.index.toNat n.toNat) s) ∧
    (n.toNat = 0 ∨ s.index.toNat + n.toNat - 1 ≤ 0xFFF →
      ∃ t, exec (.opDXYN x y n) s = .next t ∧
        (∀ cx cy, cx < 64 → cy < 32 → t.pix.get cx cy = (spriteCovers s.spriteRow n.toNat
          ((s.reg x).toNat % 64) ((s.reg y).toNat % 32) cx cy ^^ s.pix.get cx cy)) ∧
        (t.reg 0xF = 0 ∨ t.reg 0xF = 1) ∧
        (t.reg 0xF = 1 ↔ ∃ cx cy, cx < 64 ∧ cy < 32 ∧ spriteCovers s.spriteRow n.toNat
          ((s.reg x).toNat % 64) ((s.reg y).toNat % 32) cx cy = true ∧ s.pix.get cx cy = true) ∧
        RegsKept (fun r => r = 0xF) s t ∧ Unchanged [.regs, .pixels] s t)

/-- 43_display.md R190 and R192 (the document's example T7): the same sprite drawn again at the same place
restores the pixel buffer. -/
def Obligations.DrawTwiceRestoresThePixels : Prop :=
  ∀ (x y : RegNo) (n : BitVec 4) (s t u : State), x ≠ 0xF → y ≠ 0xF → s.halt = false →
    exec (.opDXYN x y n) s = .next t → t.halt = false → exec (.opDXYN x y n) t = .next u →
    ∀ cx cy, u.pix.get cx cy = s.pix.get cx cy

/-! ## Keypad and timers -/

/-- 44_keypad_timers.md R200 and R201 with decision D18: skip when key VX is down, or not down; a value above 0xF raises
OutOfRangeKeyReference carrying it. "Down" is `keyIsDown`, in which the key that KEY_LATEST reports counts as down:
the model's choice (DESIGN CHOICE, log 4). -/
def Obligations.KeySkips : Prop :=
  ∀ (x : RegNo) (s : State),
    encode (.opEX9E x) = 0xE#4 ++ x ++ 0x9E#8 ∧ encode (.opEXA1 x) = 0xE#4 ++ x ++ 0xA1#8 ∧
    (∀ k : Fin 16, (s.reg x).toNat = k.val →
      SkipsIff (.opEX9E x) (keyIsDown s.env.inputs k = true) s ∧
      SkipsIff (.opEXA1 x) (keyIsDown s.env.inputs k = false) s) ∧
    (0xF < (s.reg x).toNat → RaisesOnly (.opEX9E x) (.outOfRangeKeyReference (s.reg x)) s ∧
      RaisesOnly (.opEXA1 x) (.outOfRangeKeyReference (s.reg x)) s)

/-- 10_state.md R34, decision D18: KEY_LATEST = k implies KEY_DOWN[k], and a key given as down is down. -/
def Obligations.ReportedKeyIsDown : Prop :=
  ∀ (i : Inputs) (k : Fin 16), (i.keyLatest = some k → keyIsDown i k = true) ∧
    (i.keyDown[k] = true → keyIsDown i k = true) ∧
    (i.keyLatest ≠ some k → i.keyDown[k] = false → keyIsDown i k = false)

/-- R202: a reported key into VX, `PC` as advanced; with none, `PC` back to this instruction and nothing else
changed. -/
def Obligations.KeyWaitPolls : Prop :=
  ∀ (x : RegNo) (s : State), encode (.opFX0A x) = 0xF#4 ++ x ++ 0x0A#8 ∧
    (∀ k : Fin 16, s.env.inputs.keyLatest = some k →
      WritesReg (.opFX0A x) x (BitVec.ofNat 8 k.val) s) ∧
    (s.env.inputs.keyLatest = none →
      ∃ t, exec (.opFX0A x) s = .next t ∧ t.pc = s.pc - 2 ∧ Unchanged [.pc] s t)

/-- R203, R204, R205: VX := DT; DT := VX; ST := VX, and the TONE update at the end of that cycle sees the new
ST. -/
def Obligations.TimerAccess : Prop :=
  ∀ (x : RegNo) (s : State),
    encode (.opFX07 x) = 0xF#4 ++ x ++ 0x07#8 ∧ encode (.opFX15 x) = 0xF#4 ++ x ++ 0x15#8 ∧
    encode (.opFX18 x) = 0xF#4 ++ x ++ 0x18#8 ∧
    WritesReg (.opFX07 x) x s.dt s ∧
    (∃ t, exec (.opFX15 x) s = .next t ∧ t.dt = s.reg x ∧ Unchanged [.delay] s t) ∧
    (∃ t, exec (.opFX18 x) s = .next t ∧ t.st = s.reg x ∧ Unchanged [.sound] s t ∧
      (s.halt = false → ∃ u, finishCycle (exec (.opFX18 x) s) = .next u ∧
        u.tone = decide (s.reg x ≠ 0) ∧ Unchanged [.sound, .tone] s u))

/-! ## Whole-machine rules -/

/-- 10_state.md R24 (derived there), R33, 20_memory.md R60 to R62 and R67: the invariant is kept by every step of
every agent and every host action, from every state that meets it. -/
def Obligations.EveryStepKeepsTheInvariant : Prop := ∀ s t : State, Inv s → step s = .next t → Inv t

/-- The reset state meets the invariant. -/
def Obligations.ResetMeetsTheInvariant : Prop := Inv State.reset

/-- 20_memory.md R61, R62, R67 (decision D3): from a state that meets the invariant no step changes a font byte. -/
def Obligations.FontTableNeverChanges : Prop :=
  ∀ s t : State, Inv s → step s = .next t → ∀ k : Fin 80, t.mem.read (0x050 + k.val) = Config.font k

/-- 10_state.md R30 and 70_reset_and_hazards.md R264: QUIRK is "immutable thereafter": no step but a reset
changes it. -/
def Obligations.QuirkChangesOnlyAtReset : Prop :=
  ∀ s t : State, step s = .next t → (∀ q, s.nextEvent ≠ .reset q) → t.quirk = s.quirk

/-- 20_memory.md R60: no instruction but FX33 and FX55 writes memory. -/
def Obligations.OnlyStoresWriteMemory : Prop :=
  ∀ (i : Instr) (s t : State), exec i s = .next t →
    (∀ x, i ≠ .opFX33 x) → (∀ x, i ≠ .opFX55 x) → ∀ a, t.mem.read a = s.mem.read a

/-- 10_state.md R31 (conflict C8): no instruction but 00E0 and DXYN writes the pixel buffer. -/
def Obligations.OnlyDisplayWritesPixels : Prop :=
  ∀ (i : Instr) (s t : State), exec i s = .next t →
    i ≠ .op00E0 → (∀ x y n, i ≠ .opDXYN x y n) → t.pix = s.pix

/-- 10_state.md R25: only 2NNN pushes and only 00EE pops; no other instruction touches SP or an entry. -/
def Obligations.OnlyCallAndReturnUseTheStack : Prop :=
  ∀ (i : Instr) (s t : State), exec i s = .next t →
    i ≠ .op00EE → (∀ nnn, i ≠ .op2NNN nnn) → t.stack = s.stack ∧ t.spFree = s.spFree

/-- 10_state.md R21: an instruction that is not one of the seven flag writers and does not name VF as its
destination leaves VF alone; FX65 has VF as a destination exactly when X = F. -/
def Obligations.OnlyFlagWritersTouchVF : Prop :=
  ∀ (i : Instr) (s t : State), exec i s = .next t →
    (match i with
      | .op8XY4 _ _ | .op8XY5 _ _ | .op8XY6 _ _ | .op8XY7 _ _ | .op8XYE _ _ | .opDXYN _ _ _ => False
      | .opFX1E _ => s.quirk.addToIndexOverflow = false
      | .op6XNN x _ | .op7XNN x _ | .op8XY0 x _ | .op8XY1 x _ | .op8XY2 x _ | .op8XY3 x _ | .opCXNN x _
      | .opFX07 x | .opFX0A x | .opFX65 x => x ≠ 0xF
      | .op00E0 | .op00EE | .op1NNN _ | .op2NNN _ | .op3XNN _ _ | .op4XNN _ _ | .op5XY0 _ _ | .op9XY0 _ _
      | .opANNN _ | .opBNNN _ | .opEX9E _ | .opEXA1 _ | .opFX15 _ | .opFX18 _ | .opFX29 _ | .opFX33 _
      | .opFX55 _ => True) →
    t.reg 0xF = s.reg 0xF

/-- 60_exceptions.md R244, decision D5: faults are precise. An instruction that halts the machine changes nothing
but HALT and FAULT, and records the fetch address and its own word. -/
def Obligations.FaultsArePrecise : Prop :=
  ∀ (i : Instr) (s t : State), s.halt = false → exec i s = .next t → t.halt = true →
    ∃ k, t = { s with halt := true, fault := some ⟨k, s.pc - 2, some (encode i)⟩ }

/-- 60_exceptions.md R228: each instruction raises only the faults the table lists for it, and the listed
instructions alone raise any. -/
def Obligations.FaultsAreTheListedOnes : Prop :=
  ∀ (i : Instr) (s t : State), s.halt = false → exec i s = .next t → t.halt = true →
    ∃ r, t.fault = some r ∧
      (match i with
        | .op00EE => r.kind = .stackUnderflow
        | .op2NNN _ => r.kind = .stackOverflow
        | .opEX9E x | .opEXA1 x | .opFX29 x => r.kind = .outOfRangeKeyReference (s.reg x)
        | .opDXYN _ _ n => 0 < n.toNat ∧ r.kind = .addressOutOfRange s.index.toNat n.toNat
        | .opFX65 x => r.kind = .addressOutOfRange s.index.toNat (x.toNat + 1)
        | .opFX33 _ => r.kind = .addressOutOfRange s.index.toNat 3 ∨ r.kind = .fontTableWrite s.index.toNat
        | .opFX55 x => r.kind = .addressOutOfRange s.index.toNat (x.toNat + 1) ∨
            r.kind = .fontTableWrite s.index.toNat
        | .op00E0 | .op1NNN _ | .op3XNN _ _ | .op4XNN _ _ | .op5XY0 _ _ | .op6XNN _ _ | .op7XNN _ _
        | .op8XY0 _ _ | .op8XY1 _ _ | .op8XY2 _ _ | .op8XY3 _ _ | .op8XY4 _ _ | .op8XY5 _ _ | .op8XY6 _ _
        | .op8XY7 _ _ | .op8XYE _ _ | .op9XY0 _ _ | .opANNN _ | .opBNNN _ | .opCXNN _ _ | .opFX07 _
        | .opFX0A _ | .opFX15 _ | .opFX18 _ | .opFX1E _ => False)

/-- 00_scope.md R8, decision D10: each step is one step of one agent or one host action. The model's form of it (log
3): what the schedule lists first is what happens next, and a step takes it off and leaves the rest of the schedule
as it was. -/
def Obligations.StepTakesOneEvent : Prop :=
  (∀ (s : State) (e : Event) (es : List Event), s.env.schedule = e :: es → s.nextEvent = e) ∧
    ∀ s t : State, step s = .next t → t.env.schedule = s.env.schedule.tail
end

