-- ==== Sys2Proof/Laws/Decode.lean ====
section
/-! SUPPORT. Each field of a word built by a format is the operand it was built from (R91, R92), and a word is
the one its fields build. -/

namespace Sys2Proof

/-! ## Fields of a built word -/

@[simp] theorem fieldOP_formatNNN (op : BitVec 4) (nnn : Addr12) : fieldOP (formatNNN op nnn) = op := by
  refine BitVec.eq_of_getLsbD_eq fun k hk => ?_
  simp only [fieldOP, formatNNN, BitVec.getLsbD_extractLsb', BitVec.getLsbD_append, hk]
  interval_cases k <;> simp

@[simp] theorem fieldNNN_formatNNN (op : BitVec 4) (nnn : Addr12) : fieldNNN (formatNNN op nnn) = nnn := by
  refine BitVec.eq_of_getLsbD_eq fun k hk => ?_
  simp only [fieldNNN, formatNNN, BitVec.getLsbD_extractLsb', BitVec.getLsbD_append, hk]
  interval_cases k <;> simp

@[simp] theorem fieldOP_formatXNN (op : BitVec 4) (x : RegNo) (nn : Byte) : fieldOP (formatXNN op x nn) = op := by
  refine BitVec.eq_of_getLsbD_eq fun k hk => ?_
  simp only [fieldOP, formatXNN, BitVec.getLsbD_extractLsb', BitVec.getLsbD_append, hk]
  interval_cases k <;> simp

@[simp] theorem fieldX_formatXNN (op : BitVec 4) (x : RegNo) (nn : Byte) : fieldX (formatXNN op x nn) = x := by
  refine BitVec.eq_of_getLsbD_eq fun k hk => ?_
  simp only [fieldX, formatXNN, BitVec.getLsbD_extractLsb', BitVec.getLsbD_append, hk]
  interval_cases k <;> simp

@[simp] theorem fieldNN_formatXNN (op : BitVec 4) (x : RegNo) (nn : Byte) : fieldNN (formatXNN op x nn) = nn := by
  refine BitVec.eq_of_getLsbD_eq fun k hk => ?_
  simp only [fieldNN, formatXNN, BitVec.getLsbD_extractLsb', BitVec.getLsbD_append, hk]
  interval_cases k <;> simp

@[simp] theorem fieldOP_formatXYN (op : BitVec 4) (x y : RegNo) (n : BitVec 4) : fieldOP (formatXYN op x y n) = op := by
  refine BitVec.eq_of_getLsbD_eq fun k hk => ?_
  simp only [fieldOP, formatXYN, BitVec.getLsbD_extractLsb', BitVec.getLsbD_append, hk]
  interval_cases k <;> simp

@[simp] theorem fieldX_formatXYN (op : BitVec 4) (x y : RegNo) (n : BitVec 4) : fieldX (formatXYN op x y n) = x := by
  refine BitVec.eq_of_getLsbD_eq fun k hk => ?_
  simp only [fieldX, formatXYN, BitVec.getLsbD_extractLsb', BitVec.getLsbD_append, hk]
  interval_cases k <;> simp

@[simp] theorem fieldY_formatXYN (op : BitVec 4) (x y : RegNo) (n : BitVec 4) : fieldY (formatXYN op x y n) = y := by
  refine BitVec.eq_of_getLsbD_eq fun k hk => ?_
  simp only [fieldY, formatXYN, BitVec.getLsbD_extractLsb', BitVec.getLsbD_append, hk]
  interval_cases k <;> simp

@[simp] theorem fieldN_formatXYN (op : BitVec 4) (x y : RegNo) (n : BitVec 4) : fieldN (formatXYN op x y n) = n := by
  refine BitVec.eq_of_getLsbD_eq fun k hk => ?_
  simp only [fieldN, formatXYN, BitVec.getLsbD_extractLsb', BitVec.getLsbD_append, hk]
  interval_cases k <;> simp

/-! ## A word from its fields -/

theorem formatNNN_fields (w : Word) : formatNNN (fieldOP w) (fieldNNN w) = w := by
  refine BitVec.eq_of_getLsbD_eq fun k hk => ?_
  simp only [formatNNN, fieldOP, fieldNNN, BitVec.getLsbD_extractLsb', BitVec.getLsbD_append]
  interval_cases k <;> simp

theorem formatXNN_fields (w : Word) : formatXNN (fieldOP w) (fieldX w) (fieldNN w) = w := by
  refine BitVec.eq_of_getLsbD_eq fun k hk => ?_
  simp only [formatXNN, fieldOP, fieldX, fieldNN, BitVec.getLsbD_extractLsb', BitVec.getLsbD_append]
  interval_cases k <;> simp

theorem formatXYN_fields (w : Word) : formatXYN (fieldOP w) (fieldX w) (fieldY w) (fieldN w) = w := by
  refine BitVec.eq_of_getLsbD_eq fun k hk => ?_
  simp only [formatXYN, fieldOP, fieldX, fieldY, fieldN, BitVec.getLsbD_extractLsb', BitVec.getLsbD_append]
  interval_cases k <;> simp

/-! ## The fetched word's two bytes (R63) -/

@[simp] theorem highByte_wordOfBytes (hi lo : Byte) : highByte (wordOfBytes hi lo) = hi := by
  refine BitVec.eq_of_getLsbD_eq fun k hk => ?_
  simp only [highByte, wordOfBytes, BitVec.getLsbD_extractLsb', BitVec.getLsbD_append, hk]
  interval_cases k <;> simp

@[simp] theorem lowByte_wordOfBytes (hi lo : Byte) : lowByte (wordOfBytes hi lo) = lo := by
  refine BitVec.eq_of_getLsbD_eq fun k hk => ?_
  simp only [lowByte, wordOfBytes, BitVec.getLsbD_extractLsb', BitVec.getLsbD_append, hk]
  interval_cases k <;> simp

@[simp] theorem wordOfBytes_bytes (w : Word) : wordOfBytes (highByte w) (lowByte w) = w := by
  refine BitVec.eq_of_getLsbD_eq fun k hk => ?_
  simp only [highByte, lowByte, wordOfBytes, BitVec.getLsbD_extractLsb', BitVec.getLsbD_append]
  interval_cases k <;> simp

end Sys2Proof
end

