-- ==== Sys2Proof/Laws/Memory.lean ====
section
/-! SUPPORT. The laws of memory: a read after a write, byte sequences, the canonical form and the font table, and
what the range checks say (20_memory.md). -/

namespace Sys2Proof.Machine

/-! ## Reset content -/

theorem Memory.initial_font (k : Fin 80) : Memory.initial (0x050 + k.val) = Config.font k := by
  have h : 0x050 ≤ 0x050 + k.val ∧ 0x050 + k.val ≤ 0x09F := by omega
  simp [Memory.initial, h]

theorem Memory.initial_plain {a : Nat} (h : a < 0x050 ∨ 0x09F < a) : Memory.initial a = 0 := by
  have : ¬ (0x050 ≤ a ∧ a ≤ 0x09F) := by omega
  simp [Memory.initial, this]

@[simp] theorem Memory.read_nil (a : Nat) : Memory.read [] a = Memory.initial a := rfl

@[simp] theorem Memory.read_cons (b : Nat) (u : Byte) (m : Memory) (a : Nat) :
    Memory.read ((b, u) :: m) a = if a = b then u else Memory.read m a := rfl

/-! ## One byte -/

/-- An address below every listed one reads as its reset content. -/
theorem Memory.read_of_below {m : Memory} {a : Nat} (h : ∀ c ∈ m, a < c.1) :
    m.read a = Memory.initial a := by
  induction m with
  | nil => rfl
  | cons c m ih =>
    have := h c (by simp)
    rw [Memory.read_cons, if_neg (by omega)]
    exact ih fun d hd => h d (by simp [hd])

/-- The head of a canonical memory lies below the rest. -/
theorem Memory.wf_head {c : Host.Cell} {m : Memory} (h : Memory.wf (c :: m)) : ∀ d ∈ m, c.1 < d.1 :=
  (List.pairwise_cons.mp h.1).1

theorem Memory.wf_tail {c : Host.Cell} {m : Memory} (h : Memory.wf (c :: m)) : Memory.wf m :=
  ⟨(List.pairwise_cons.mp h.1).2, fun d hd => h.2 d (by simp [hd])⟩

theorem Memory.wf_cons {c : Host.Cell} {m : Memory} (h : ∀ d ∈ m, c.1 < d.1) (ha : c.1 ≤ 0xFFF)
    (hv : c.2 ≠ Memory.initial c.1) (hm : m.wf) : Memory.wf (c :: m) :=
  ⟨List.pairwise_cons.mpr ⟨h, hm.1⟩, fun d hd => by
    rcases List.mem_cons.mp hd with rfl | hd
    · exact ⟨ha, hv⟩
    · exact hm.2 d hd⟩

@[simp] theorem Memory.wf_nil : Memory.wf [] := ⟨List.Pairwise.nil, by simp⟩

/-- Reading the address just written gives the byte, and every other address is as before. -/
theorem Memory.read_write {m : Memory} (h : m.wf) (a : Nat) (v : Byte) (b : Nat) :
    (m.write a v).read b = if b = a then v else m.read b := by
  induction m with
  | nil =>
    simp only [Memory.write]
    split <;> by_cases hb : b = a <;> simp_all
  | cons c m ih =>
    obtain ⟨d, u⟩ := c
    have hd : ∀ x ∈ m, d < x.1 := Memory.wf_head h
    have below : ∀ e, e ≤ d → Memory.read m e = Memory.initial e := fun e he =>
      Memory.read_of_below fun x hx => by have := hd x hx; omega
    simp only [Memory.write]
    split
    · split <;> by_cases hb : b = a
      · subst hb
        rw [Memory.read_cons, if_neg (by omega), below b (by omega), if_pos rfl]
        exact (‹v = _›).symm
      all_goals simp [hb]
    · split
      · subst d
        split <;> by_cases hb : b = a
        · subst hb
          rw [below b (by omega), if_pos rfl]
          exact (‹v = _›).symm
        all_goals simp [hb]
      · rw [Memory.read_cons, Memory.read_cons, ih (Memory.wf_tail h)]
        by_cases hb : b = d
        · rw [if_pos hb, if_pos hb, if_neg (by omega)]
        · rw [if_neg hb, if_neg hb]

/-- What a write lists was listed, or is the byte written. -/
theorem Memory.mem_write {m : Memory} {a : Nat} {v : Byte} {c : Host.Cell} (h : c ∈ m.write a v) :
    c ∈ m ∨ c = (a, v) := by
  induction m with
  | nil =>
    simp only [Memory.write] at h
    split at h <;> simp_all
  | cons d m ih =>
    obtain ⟨e, u⟩ := d
    simp only [Memory.write] at h
    split at h
    · split at h <;> (simp_all; try tauto)
    · split at h
      · split at h <;> (simp_all; try tauto)
      · simp only [List.mem_cons] at h ⊢
        rcases h with h | h
        · exact .inl (.inl h)
        · rcases ih h with h | h <;> simp_all

/-- A write keeps the canonical form. -/
theorem Memory.write_wf {m : Memory} (h : m.wf) {a : Nat} (ha : a ≤ 0xFFF) (v : Byte) :
    (m.write a v).wf := by
  induction m with
  | nil =>
    simp only [Memory.write]
    split
    · exact Memory.wf_nil
    · exact Memory.wf_cons (by simp) ha ‹_› Memory.wf_nil
  | cons c m ih =>
    obtain ⟨d, u⟩ := c
    have hd := Memory.wf_head h
    simp only at hd
    simp only [Memory.write]
    split
    · split
      · exact h
      · refine Memory.wf_cons (fun x hx => ?_) ha ‹_› h
        rcases List.mem_cons.mp hx with rfl | hx
        · assumption
        · have := hd x hx; simp only; omega
    · split
      · split
        · exact Memory.wf_tail h
        · subst d; exact Memory.wf_cons hd ha ‹_› (Memory.wf_tail h)
      · refine Memory.wf_cons (fun x hx => ?_) (h.2 (d, u) (by simp)).1 (h.2 (d, u) (by simp)).2
          (ih (Memory.wf_tail h))
        rcases Memory.mem_write hx with hx | rfl
        · exact hd x hx
        · simp only; omega

/-- A write outside the font table lists nothing in it. -/
theorem Memory.write_fontIntact {m : Memory} (h : m.fontIntact) {a : Nat}
    (ha : ¬ (0x050 ≤ a ∧ a ≤ 0x09F)) (v : Byte) : (m.write a v).fontIntact := fun c hc => by
  rcases Memory.mem_write hc with hc | rfl
  · exact h c hc
  · exact ha

/-- While nothing of the font table is listed, it reads as FONT. -/
theorem Memory.read_font {m : Memory} (h : m.fontIntact) (k : Fin 80) :
    m.read (0x050 + k.val) = Config.font k := by
  induction m with
  | nil => exact Memory.initial_font k
  | cons c m ih =>
    have hc := h c (by simp)
    rw [Memory.read_cons, if_neg (by omega)]
    exact ih fun d hd => h d (by simp [hd])

/-! ## Byte sequences -/

/-- Every byte after a sequence of writes. -/
theorem Memory.read_writeBytes {m : Memory} (h : m.wf) (base : Nat) (vs : List Byte)
    (hr : base + vs.length ≤ 0x1000) (a : Nat) :
    (m.writeBytes base vs).read a =
      if base ≤ a ∧ a < base + vs.length then vs.getD (a - base) 0 else m.read a := by
  induction vs generalizing m base with
  | nil =>
    rw [if_neg (by simp only [List.length_nil]; omega)]
    rfl
  | cons v vs ih =>
    simp only [List.length_cons] at hr
    rw [Memory.writeBytes, ih (Memory.write_wf h (by omega) v) _ (by omega), Memory.read_write h]
    simp only [List.length_cons]
    by_cases h1 : a = base
    · subst h1
      rw [if_neg (by omega), if_pos rfl, if_pos (by omega)]
      simp
    · by_cases h2 : base + 1 ≤ a ∧ a < base + 1 + vs.length
      · rw [if_pos h2, if_pos (by omega)]
        obtain ⟨j, rfl⟩ : ∃ j, a = base + 1 + j := ⟨a - (base + 1), by omega⟩
        simp [show base + 1 + j - base = j + 1 by omega]
      · rw [if_neg h2, if_neg h1, if_neg (by omega)]

/-- A sequence of writes inside memory keeps the canonical form. -/
theorem Memory.writeBytes_wf {m : Memory} (h : m.wf) (base : Nat) (vs : List Byte)
    (hr : base + vs.length ≤ 0x1000) : (m.writeBytes base vs).wf := by
  induction vs generalizing m base with
  | nil => exact h
  | cons v vs ih =>
    simp only [List.length_cons] at hr
    exact ih (Memory.write_wf h (by omega) v) _ (by omega)

/-- A sequence of writes outside the font table lists nothing in it. -/
theorem Memory.writeBytes_fontIntact {m : Memory} (h : m.fontIntact) (base : Nat) (vs : List Byte)
    (hr : 0x09F < base ∨ base + vs.length ≤ 0x050) : (m.writeBytes base vs).fontIntact := by
  induction vs generalizing m base with
  | nil => exact h
  | cons v vs ih =>
    simp only [List.length_cons] at hr
    exact ih (Memory.write_fontIntact h (by omega) v) _ (by omega)

@[simp] theorem Memory.readBytes_length (m : Memory) (base n : Nat) : (m.readBytes base n).length = n := by
  induction n generalizing base with
  | zero => rfl
  | succ n ih => simp [Memory.readBytes, ih]

/-- The j-th byte of a sequence of reads. -/
theorem Memory.readBytes_getD (m : Memory) (base n : Nat) {j : Nat} (hj : j < n) :
    (m.readBytes base n).getD j 0 = m.read (base + j) := by
  induction n generalizing base j with
  | zero => omega
  | succ n ih =>
    cases j with
    | zero => rfl
    | succ j =>
      have := ih (base + 1) (j := j) (by omega)
      simp only [Memory.readBytes, List.getD_cons_succ, this]
      congr 1; omega

/-! ## Range checks (R68) -/

/-- `CheckRead` passes exactly when the whole range is in memory. -/
theorem checkRead_eq_none {base count : Nat} : checkRead base count = none ↔ base + count - 1 ≤ 0xFFF := by
  simp [checkRead]

/-- `CheckWrite` passes exactly when the whole range is in memory and outside the font table. -/
theorem checkWrite_eq_none {base count : Nat} : checkWrite base count = none ↔
    base + count - 1 ≤ 0xFFF ∧ (0x09F < base ∨ base + count - 1 < 0x050) := by
  unfold checkWrite
  split
  · simp; omega
  · split <;> simp <;> omega

theorem checkRead_fault {base count : Nat} (h : 0xFFF < base + count - 1) :
    checkRead base count = some (.addressOutOfRange base count) := if_pos h

theorem checkWrite_range {base count : Nat} (h : 0xFFF < base + count - 1) :
    checkWrite base count = some (.addressOutOfRange base count) := if_pos h

theorem checkWrite_font {base count : Nat} (h : base + count - 1 ≤ 0xFFF) (h1 : base ≤ 0x09F)
    (h2 : 0x050 ≤ base + count - 1) : checkWrite base count = some (.fontTableWrite base) := by
  rw [checkWrite, if_neg (by omega), if_pos ⟨h1, h2⟩]

/-- The fetch answers the two bytes at `a`, the first the high half (R63). -/
theorem fetchWord_ok (m : Memory) {a : Nat} (h : a ≤ 0xFFE) :
    fetchWord m a = .ok (wordOfBytes (m.read a) (m.read (a + 1))) := by
  rw [fetchWord, checkRead_eq_none.mpr (by omega)]

/-- A fetch whose range passes 0xFFF faults (R66). -/
theorem fetchWord_error (m : Memory) {a : Nat} (h : 0xFFE < a) :
    fetchWord m a = .error (.addressOutOfRange a 2) := by
  rw [fetchWord, checkRead_fault (by omega)]

end Sys2Proof.Machine
end

