-- ==== Sys2Proof/Laws/State.lean ====
section
/-! SUPPORT. One lemma per field per update of State, each true by unfolding the update, so that no later proof
unfolds a record update. -/

namespace Sys2Proof.Machine

/-! ## `State.setReg` -/

@[simp] theorem State.v_setReg (s : State) (x : RegNo) (b : Byte) : (s.setReg x b).v = s.v.set x.toNat b x.isLt := rfl
@[simp] theorem State.index_setReg (s : State) (x : RegNo) (b : Byte) : (s.setReg x b).index = s.index := rfl
@[simp] theorem State.pc_setReg (s : State) (x : RegNo) (b : Byte) : (s.setReg x b).pc = s.pc := rfl
@[simp] theorem State.stack_setReg (s : State) (x : RegNo) (b : Byte) : (s.setReg x b).stack = s.stack := rfl
@[simp] theorem State.spFree_setReg (s : State) (x : RegNo) (b : Byte) : (s.setReg x b).spFree = s.spFree := rfl
@[simp] theorem State.dt_setReg (s : State) (x : RegNo) (b : Byte) : (s.setReg x b).dt = s.dt := rfl
@[simp] theorem State.st_setReg (s : State) (x : RegNo) (b : Byte) : (s.setReg x b).st = s.st := rfl
@[simp] theorem State.quirk_setReg (s : State) (x : RegNo) (b : Byte) : (s.setReg x b).quirk = s.quirk := rfl
@[simp] theorem State.pix_setReg (s : State) (x : RegNo) (b : Byte) : (s.setReg x b).pix = s.pix := rfl
@[simp] theorem State.mem_setReg (s : State) (x : RegNo) (b : Byte) : (s.setReg x b).mem = s.mem := rfl
@[simp] theorem State.halt_setReg (s : State) (x : RegNo) (b : Byte) : (s.setReg x b).halt = s.halt := rfl
@[simp] theorem State.fault_setReg (s : State) (x : RegNo) (b : Byte) : (s.setReg x b).fault = s.fault := rfl
@[simp] theorem State.tone_setReg (s : State) (x : RegNo) (b : Byte) : (s.setReg x b).tone = s.tone := rfl
@[simp] theorem State.env_setReg (s : State) (x : RegNo) (b : Byte) : (s.setReg x b).env = s.env := rfl

/-! ## `State.writeFlagged` -/

@[simp] theorem State.index_writeFlagged (s : State) (x : RegNo) (r : AluResult) : (s.writeFlagged x r).index = s.index := rfl
@[simp] theorem State.pc_writeFlagged (s : State) (x : RegNo) (r : AluResult) : (s.writeFlagged x r).pc = s.pc := rfl
@[simp] theorem State.stack_writeFlagged (s : State) (x : RegNo) (r : AluResult) : (s.writeFlagged x r).stack = s.stack := rfl
@[simp] theorem State.spFree_writeFlagged (s : State) (x : RegNo) (r : AluResult) : (s.writeFlagged x r).spFree = s.spFree := rfl
@[simp] theorem State.dt_writeFlagged (s : State) (x : RegNo) (r : AluResult) : (s.writeFlagged x r).dt = s.dt := rfl
@[simp] theorem State.st_writeFlagged (s : State) (x : RegNo) (r : AluResult) : (s.writeFlagged x r).st = s.st := rfl
@[simp] theorem State.quirk_writeFlagged (s : State) (x : RegNo) (r : AluResult) : (s.writeFlagged x r).quirk = s.quirk := rfl
@[simp] theorem State.pix_writeFlagged (s : State) (x : RegNo) (r : AluResult) : (s.writeFlagged x r).pix = s.pix := rfl
@[simp] theorem State.mem_writeFlagged (s : State) (x : RegNo) (r : AluResult) : (s.writeFlagged x r).mem = s.mem := rfl
@[simp] theorem State.halt_writeFlagged (s : State) (x : RegNo) (r : AluResult) : (s.writeFlagged x r).halt = s.halt := rfl
@[simp] theorem State.fault_writeFlagged (s : State) (x : RegNo) (r : AluResult) : (s.writeFlagged x r).fault = s.fault := rfl
@[simp] theorem State.tone_writeFlagged (s : State) (x : RegNo) (r : AluResult) : (s.writeFlagged x r).tone = s.tone := rfl
@[simp] theorem State.env_writeFlagged (s : State) (x : RegNo) (r : AluResult) : (s.writeFlagged x r).env = s.env := rfl

/-! ## `State.skipIf` -/

@[simp] theorem State.v_skipIf (s : State) (c : Bool) : (s.skipIf c).v = s.v := rfl
@[simp] theorem State.index_skipIf (s : State) (c : Bool) : (s.skipIf c).index = s.index := rfl
@[simp] theorem State.pc_skipIf (s : State) (c : Bool) : (s.skipIf c).pc = if c then s.pc + 2 else s.pc := rfl
@[simp] theorem State.stack_skipIf (s : State) (c : Bool) : (s.skipIf c).stack = s.stack := rfl
@[simp] theorem State.spFree_skipIf (s : State) (c : Bool) : (s.skipIf c).spFree = s.spFree := rfl
@[simp] theorem State.dt_skipIf (s : State) (c : Bool) : (s.skipIf c).dt = s.dt := rfl
@[simp] theorem State.st_skipIf (s : State) (c : Bool) : (s.skipIf c).st = s.st := rfl
@[simp] theorem State.quirk_skipIf (s : State) (c : Bool) : (s.skipIf c).quirk = s.quirk := rfl
@[simp] theorem State.pix_skipIf (s : State) (c : Bool) : (s.skipIf c).pix = s.pix := rfl
@[simp] theorem State.mem_skipIf (s : State) (c : Bool) : (s.skipIf c).mem = s.mem := rfl
@[simp] theorem State.halt_skipIf (s : State) (c : Bool) : (s.skipIf c).halt = s.halt := rfl
@[simp] theorem State.fault_skipIf (s : State) (c : Bool) : (s.skipIf c).fault = s.fault := rfl
@[simp] theorem State.tone_skipIf (s : State) (c : Bool) : (s.skipIf c).tone = s.tone := rfl
@[simp] theorem State.env_skipIf (s : State) (c : Bool) : (s.skipIf c).env = s.env := rfl

/-! ## `State.raise` -/

@[simp] theorem State.v_raise (s : State) (k : FaultKind) (a : Word) (w : Option Word) : (s.raise k a w).v = s.v := rfl
@[simp] theorem State.index_raise (s : State) (k : FaultKind) (a : Word) (w : Option Word) : (s.raise k a w).index = s.index := rfl
@[simp] theorem State.pc_raise (s : State) (k : FaultKind) (a : Word) (w : Option Word) : (s.raise k a w).pc = s.pc := rfl
@[simp] theorem State.stack_raise (s : State) (k : FaultKind) (a : Word) (w : Option Word) : (s.raise k a w).stack = s.stack := rfl
@[simp] theorem State.spFree_raise (s : State) (k : FaultKind) (a : Word) (w : Option Word) : (s.raise k a w).spFree = s.spFree := rfl
@[simp] theorem State.dt_raise (s : State) (k : FaultKind) (a : Word) (w : Option Word) : (s.raise k a w).dt = s.dt := rfl
@[simp] theorem State.st_raise (s : State) (k : FaultKind) (a : Word) (w : Option Word) : (s.raise k a w).st = s.st := rfl
@[simp] theorem State.quirk_raise (s : State) (k : FaultKind) (a : Word) (w : Option Word) : (s.raise k a w).quirk = s.quirk := rfl
@[simp] theorem State.pix_raise (s : State) (k : FaultKind) (a : Word) (w : Option Word) : (s.raise k a w).pix = s.pix := rfl
@[simp] theorem State.mem_raise (s : State) (k : FaultKind) (a : Word) (w : Option Word) : (s.raise k a w).mem = s.mem := rfl
@[simp] theorem State.halt_raise (s : State) (k : FaultKind) (a : Word) (w : Option Word) : (s.raise k a w).halt = true := rfl
@[simp] theorem State.fault_raise (s : State) (k : FaultKind) (a : Word) (w : Option Word) : (s.raise k a w).fault = some ⟨k, a, w⟩ := rfl
@[simp] theorem State.tone_raise (s : State) (k : FaultKind) (a : Word) (w : Option Word) : (s.raise k a w).tone = s.tone := rfl
@[simp] theorem State.env_raise (s : State) (k : FaultKind) (a : Word) (w : Option Word) : (s.raise k a w).env = s.env := rfl

/-! ## `State.raiseIn` -/

@[simp] theorem State.v_raiseIn (s : State) (i : Instr) (k : FaultKind) : (s.raiseIn i k).v = s.v := rfl
@[simp] theorem State.index_raiseIn (s : State) (i : Instr) (k : FaultKind) : (s.raiseIn i k).index = s.index := rfl
@[simp] theorem State.pc_raiseIn (s : State) (i : Instr) (k : FaultKind) : (s.raiseIn i k).pc = s.pc := rfl
@[simp] theorem State.stack_raiseIn (s : State) (i : Instr) (k : FaultKind) : (s.raiseIn i k).stack = s.stack := rfl
@[simp] theorem State.spFree_raiseIn (s : State) (i : Instr) (k : FaultKind) : (s.raiseIn i k).spFree = s.spFree := rfl
@[simp] theorem State.dt_raiseIn (s : State) (i : Instr) (k : FaultKind) : (s.raiseIn i k).dt = s.dt := rfl
@[simp] theorem State.st_raiseIn (s : State) (i : Instr) (k : FaultKind) : (s.raiseIn i k).st = s.st := rfl
@[simp] theorem State.quirk_raiseIn (s : State) (i : Instr) (k : FaultKind) : (s.raiseIn i k).quirk = s.quirk := rfl
@[simp] theorem State.pix_raiseIn (s : State) (i : Instr) (k : FaultKind) : (s.raiseIn i k).pix = s.pix := rfl
@[simp] theorem State.mem_raiseIn (s : State) (i : Instr) (k : FaultKind) : (s.raiseIn i k).mem = s.mem := rfl
@[simp] theorem State.halt_raiseIn (s : State) (i : Instr) (k : FaultKind) : (s.raiseIn i k).halt = true := rfl
@[simp] theorem State.fault_raiseIn (s : State) (i : Instr) (k : FaultKind) : (s.raiseIn i k).fault = some ⟨k, s.pc - 2, some (encode i)⟩ := rfl
@[simp] theorem State.tone_raiseIn (s : State) (i : Instr) (k : FaultKind) : (s.raiseIn i k).tone = s.tone := rfl
@[simp] theorem State.env_raiseIn (s : State) (i : Instr) (k : FaultKind) : (s.raiseIn i k).env = s.env := rfl

/-! ## `State.advance` -/

@[simp] theorem State.v_advance (s : State) : (s.advance).v = s.v := rfl
@[simp] theorem State.index_advance (s : State) : (s.advance).index = s.index := rfl
@[simp] theorem State.pc_advance (s : State) : (s.advance).pc = s.pc + 2 := rfl
@[simp] theorem State.stack_advance (s : State) : (s.advance).stack = s.stack := rfl
@[simp] theorem State.spFree_advance (s : State) : (s.advance).spFree = s.spFree := rfl
@[simp] theorem State.dt_advance (s : State) : (s.advance).dt = s.dt := rfl
@[simp] theorem State.st_advance (s : State) : (s.advance).st = s.st := rfl
@[simp] theorem State.quirk_advance (s : State) : (s.advance).quirk = s.quirk := rfl
@[simp] theorem State.pix_advance (s : State) : (s.advance).pix = s.pix := rfl
@[simp] theorem State.mem_advance (s : State) : (s.advance).mem = s.mem := rfl
@[simp] theorem State.halt_advance (s : State) : (s.advance).halt = s.halt := rfl
@[simp] theorem State.fault_advance (s : State) : (s.advance).fault = s.fault := rfl
@[simp] theorem State.tone_advance (s : State) : (s.advance).tone = s.tone := rfl
@[simp] theorem State.env_advance (s : State) : (s.advance).env = s.env := rfl

/-! ## `State.begin` -/

@[simp] theorem State.v_begin (s : State) (g : Inputs) : (s.begin g).v = s.v := rfl
@[simp] theorem State.index_begin (s : State) (g : Inputs) : (s.begin g).index = s.index := rfl
@[simp] theorem State.pc_begin (s : State) (g : Inputs) : (s.begin g).pc = s.pc := rfl
@[simp] theorem State.stack_begin (s : State) (g : Inputs) : (s.begin g).stack = s.stack := rfl
@[simp] theorem State.spFree_begin (s : State) (g : Inputs) : (s.begin g).spFree = s.spFree := rfl
@[simp] theorem State.dt_begin (s : State) (g : Inputs) : (s.begin g).dt = s.dt := rfl
@[simp] theorem State.st_begin (s : State) (g : Inputs) : (s.begin g).st = s.st := rfl
@[simp] theorem State.quirk_begin (s : State) (g : Inputs) : (s.begin g).quirk = s.quirk := rfl
@[simp] theorem State.pix_begin (s : State) (g : Inputs) : (s.begin g).pix = s.pix := rfl
@[simp] theorem State.mem_begin (s : State) (g : Inputs) : (s.begin g).mem = s.mem := rfl
@[simp] theorem State.halt_begin (s : State) (g : Inputs) : (s.begin g).halt = s.halt := rfl
@[simp] theorem State.fault_begin (s : State) (g : Inputs) : (s.begin g).fault = s.fault := rfl
@[simp] theorem State.tone_begin (s : State) (g : Inputs) : (s.begin g).tone = s.tone := rfl
@[simp] theorem State.env_begin (s : State) (g : Inputs) : (s.begin g).env = { s.env with inputs := g, loadable := false } := rfl

/-! ## `State.complete` -/

@[simp] theorem State.v_complete (s : State) : (s.complete).v = s.v := rfl
@[simp] theorem State.index_complete (s : State) : (s.complete).index = s.index := rfl
@[simp] theorem State.pc_complete (s : State) : (s.complete).pc = s.pc := rfl
@[simp] theorem State.stack_complete (s : State) : (s.complete).stack = s.stack := rfl
@[simp] theorem State.spFree_complete (s : State) : (s.complete).spFree = s.spFree := rfl
@[simp] theorem State.dt_complete (s : State) : (s.complete).dt = s.dt := rfl
@[simp] theorem State.st_complete (s : State) : (s.complete).st = s.st := rfl
@[simp] theorem State.quirk_complete (s : State) : (s.complete).quirk = s.quirk := rfl
@[simp] theorem State.pix_complete (s : State) : (s.complete).pix = s.pix := rfl
@[simp] theorem State.mem_complete (s : State) : (s.complete).mem = s.mem := rfl
@[simp] theorem State.halt_complete (s : State) : (s.complete).halt = s.halt := rfl
@[simp] theorem State.fault_complete (s : State) : (s.complete).fault = s.fault := rfl
@[simp] theorem State.tone_complete (s : State) : (s.complete).tone = if s.halt then s.tone else s.st != 0 := rfl
@[simp] theorem State.env_complete (s : State) : (s.complete).env = s.env := rfl

/-! ## `State.tick` -/

@[simp] theorem State.v_tick (s : State) : (s.tick).v = s.v := rfl
@[simp] theorem State.index_tick (s : State) : (s.tick).index = s.index := rfl
@[simp] theorem State.pc_tick (s : State) : (s.tick).pc = s.pc := rfl
@[simp] theorem State.stack_tick (s : State) : (s.tick).stack = s.stack := rfl
@[simp] theorem State.spFree_tick (s : State) : (s.tick).spFree = s.spFree := rfl
@[simp] theorem State.dt_tick (s : State) : (s.tick).dt = countDown s.dt := rfl
@[simp] theorem State.st_tick (s : State) : (s.tick).st = countDown s.st := rfl
@[simp] theorem State.quirk_tick (s : State) : (s.tick).quirk = s.quirk := rfl
@[simp] theorem State.pix_tick (s : State) : (s.tick).pix = s.pix := rfl
@[simp] theorem State.mem_tick (s : State) : (s.tick).mem = s.mem := rfl
@[simp] theorem State.halt_tick (s : State) : (s.tick).halt = s.halt := rfl
@[simp] theorem State.fault_tick (s : State) : (s.tick).fault = s.fault := rfl
@[simp] theorem State.tone_tick (s : State) : (s.tick).tone = s.tone := rfl
@[simp] theorem State.env_tick (s : State) : (s.tick).env = s.env := rfl

/-! ## `State.dropEvent` -/

@[simp] theorem State.v_dropEvent (s : State) : (s.dropEvent).v = s.v := rfl
@[simp] theorem State.index_dropEvent (s : State) : (s.dropEvent).index = s.index := rfl
@[simp] theorem State.pc_dropEvent (s : State) : (s.dropEvent).pc = s.pc := rfl
@[simp] theorem State.stack_dropEvent (s : State) : (s.dropEvent).stack = s.stack := rfl
@[simp] theorem State.spFree_dropEvent (s : State) : (s.dropEvent).spFree = s.spFree := rfl
@[simp] theorem State.dt_dropEvent (s : State) : (s.dropEvent).dt = s.dt := rfl
@[simp] theorem State.st_dropEvent (s : State) : (s.dropEvent).st = s.st := rfl
@[simp] theorem State.quirk_dropEvent (s : State) : (s.dropEvent).quirk = s.quirk := rfl
@[simp] theorem State.pix_dropEvent (s : State) : (s.dropEvent).pix = s.pix := rfl
@[simp] theorem State.mem_dropEvent (s : State) : (s.dropEvent).mem = s.mem := rfl
@[simp] theorem State.halt_dropEvent (s : State) : (s.dropEvent).halt = s.halt := rfl
@[simp] theorem State.fault_dropEvent (s : State) : (s.dropEvent).fault = s.fault := rfl
@[simp] theorem State.tone_dropEvent (s : State) : (s.dropEvent).tone = s.tone := rfl

end Sys2Proof.Machine
end

