-- ==== Sys2Proof/Laws/Ops.lean ====
section
/-! SUPPORT. The laws of the shared operations: registers, flags, the call stack, pixels, key digits, and how a
meaning answers. Each says once what the operation can do. -/

namespace Sys2Proof.Machine

/-! ## Registers -/

theorem State.reg_setReg (s : State) (x : RegNo) (b : Byte) (r : RegNo) :
    (s.setReg x b).reg r = if r = x then b else s.reg r := by
  simp only [State.reg, State.v_setReg, Vector.getElem_set]
  by_cases h : r = x
  · subst h; simp
  · have : ¬ x.toNat = r.toNat := fun e => h (BitVec.eq_of_toNat_eq e.symm)
    simp [h, this]

@[simp] theorem State.reg_setReg_same (s : State) (x : RegNo) (b : Byte) : (s.setReg x b).reg x = b := by
  simp [State.reg_setReg]

theorem State.reg_setReg_other (s : State) {x r : RegNo} (b : Byte) (h : r ≠ x) :
    (s.setReg x b).reg r = s.reg r := by
  simp [State.reg_setReg, h]

/-- The register read sees only `v`. -/
theorem State.reg_congr {s t : State} (h : t.v = s.v) (r : RegNo) : t.reg r = s.reg r := by
  simp [State.reg, h]

/-- A flag-writing instruction's two writes: the result in V[x], the flag in VF unless x = F, nothing else. -/
theorem State.reg_writeFlagged (s : State) (x : RegNo) (a : AluResult) (r : RegNo) :
    (s.writeFlagged x a).reg r = if r = x then a.value else if r = vf then flagByte a.flag else s.reg r := by
  simp [State.writeFlagged, State.reg_setReg]

/-- Entry `j` after loading consecutive registers. -/
theorem getElem_loadFrom (v : Vector Byte 16) (i : Nat) (bs : List Byte) (j : Nat) (hj : j < 16) :
    (loadFrom v i bs)[j] = if i ≤ j ∧ j < i + bs.length then bs.getD (j - i) 0 else v[j] := by
  induction bs generalizing v i with
  | nil => simp [loadFrom]
  | cons b bs ih =>
    simp only [loadFrom, ih, List.length_cons, Vector.getElem_setIfInBounds]
    by_cases h1 : i = j
    · subst h1
      rw [if_neg (by omega), if_pos rfl, if_pos (by omega)]
      simp
    · by_cases h2 : i + 1 ≤ j ∧ j < i + 1 + bs.length
      · rw [if_pos h2, if_pos (by omega)]
        obtain ⟨k, rfl⟩ : ∃ k, j = i + 1 + k := ⟨j - (i + 1), by omega⟩
        simp [show i + 1 + k - i = k + 1 by omega]
      · rw [if_neg h2, if_neg h1, if_neg (by omega)]

@[simp] theorem State.regsTo_length (s : State) (x : RegNo) : (s.regsTo x).length = x.toNat + 1 := by
  have := x.isLt
  simp [State.regsTo]; omega

/-- The r-th stored register is V[r]. -/
theorem State.regsTo_getD (s : State) (x r : RegNo) (h : r ≤ x) : (s.regsTo x).getD r.toNat 0 = s.reg r := by
  have hr := r.isLt
  have hx : r.toNat < x.toNat + 1 := by have := BitVec.le_def.mp h; omega
  simp [State.regsTo, State.reg, List.getD_eq_getElem?_getD, hx, hr]

/-! ## Flags -/

theorem flagByte_eq_one {b : Bool} : flagByte b = 1 ↔ b = true := by cases b <;> decide

theorem flagByte_eq_zero {b : Bool} : flagByte b = 0 ↔ b = false := by cases b <;> decide

theorem addCarry_value (x y : Byte) : (addCarry x y).value.toNat = (x.toNat + y.toNat) % 256 := by
  simp [addCarry]

theorem addCarry_flag (x y : Byte) : (addCarry x y).flag = decide (x.toNat + y.toNat > 255) := rfl

theorem subGreater_value (x y : Byte) :
    (subGreater x y).value.toNat = (256 + x.toNat - y.toNat) % 256 := by
  have hx := x.isLt
  have hy := y.isLt
  simp only [subGreater, BitVec.toNat_ofInt]
  omega

theorem subGreater_flag (x y : Byte) : (subGreater x y).flag = decide (x.toNat > y.toNat) := rfl

theorem shiftRight_value (t : Byte) : (shiftRight t).value.toNat = t.toNat / 2 := by
  simp [shiftRight, BitVec.toNat_ushiftRight, Nat.shiftRight_eq_div_pow]

theorem shiftRight_flag (t : Byte) : (shiftRight t).flag = decide (t.toNat % 2 = 1) := by
  simp [shiftRight, BitVec.getLsbD, Nat.testBit_zero]

theorem shiftLeft_value (t : Byte) : (shiftLeft t).value.toNat = t.toNat * 2 % 256 := by
  simp [shiftLeft, BitVec.toNat_shiftLeft, Nat.shiftLeft_eq]

theorem shiftLeft_flag (t : Byte) : (shiftLeft t).flag = decide (128 ≤ t.toNat) := by
  have h := BitVec.msb_eq_decide t
  rw [BitVec.msb_eq_getLsbD_last] at h
  exact h

/-! ## Call stack -/

/-- A push raises exactly on a full stack; else it writes STACK[SP] and lowers SP (R26). -/
theorem State.push_full {s : State} (h : s.spFree.val = 0) (v : Word) : s.push v = .error .stackOverflow := by
  simp [State.push, h]

theorem State.push_ok {s : State} (h : s.spFree.val ≠ 0) (v : Word) : s.push v = .ok { s with
    stack := s.stack.set (s.spFree.val - 1) v (by omega)
    spFree := ⟨s.spFree.val - 1, by omega⟩ } := by
  simp [State.push, h]

/-- A pop raises exactly on an empty stack; else it reads the newest entry and raises SP (R27). -/
theorem State.popPc_empty {s : State} (h : s.spFree.val = 16) : s.popPc = .error .stackUnderflow := by
  simp [State.popPc, h]

theorem State.popPc_ok {s : State} (h : s.spFree.val ≠ 16) : s.popPc = .ok { s with
    pc := s.stack[s.spFree.val]'(by omega)
    spFree := ⟨s.spFree.val + 1, by omega⟩ } := by
  simp [State.popPc, h]

/-! ## Pixels -/

@[simp] theorem Pixels.get_clear (x y : Nat) : Pixels.clear.get x y = false := by
  unfold Pixels.get Pixels.clear
  split <;> simp

/-- One pixel after one pixel was written. -/
theorem Pixels.get_put (p : Pixels) {x y : Nat} (hx : x < 64) (hy : y < 32) (b : Bool) (cx cy : Nat) :
    (p.put x y b).get cx cy = if cx = x ∧ cy = y then b else p.get cx cy := by
  have hp : p.put x y b = p.set y ((p[y]'hy).set x b hx) hy := dif_pos ⟨hx, hy⟩
  simp only [hp, Pixels.get]
  by_cases hc : cx < 64 ∧ cy < 32
  · rw [dif_pos hc, dif_pos hc]
    by_cases h1 : y = cy
    · subst h1
      by_cases h2 : x = cx
      · subst h2; simp
      · have : ¬ cx = x := fun e => h2 e.symm
        simp [h2, this]
    · have : ¬ cy = y := fun e => h1 e.symm
      simp [h1, this]
  · rw [dif_neg hc, dif_neg hc]
    have : ¬ (cx = x ∧ cy = y) := by omega
    simp [this]

/-! ## Key digits -/

theorem keyDigit_ok {b : Byte} (h : b.toNat ≤ 0xF) : keyDigit b = .ok ⟨b.toNat, by omega⟩ := dif_pos h

theorem keyDigit_error {b : Byte} (h : 0xF < b.toNat) : keyDigit b = .error (.outOfRangeKeyReference b) :=
  dif_neg (by omega)

/-! ## How a meaning answers -/

@[simp] theorem answer_ok (i : Instr) (s t : State) : answer i s (.ok t) = .next t := rfl

@[simp] theorem answer_error (i : Instr) (s : State) (k : FaultKind) :
    answer i s (.error k) = .next (s.raiseIn i k) := rfl

/-- What an answer that is a next state can be: the execute stage's own, or the raised fault's. -/
theorem answer_next {i : Instr} {s t : State} {r : Except FaultKind State} (h : answer i s r = .next t) :
    r = .ok t ∨ ∃ k, r = .error k ∧ t = s.raiseIn i k := by
  cases r with
  | ok u => simp_all
  | error k => simp only [answer_error, Host.Outcome.next.injEq] at h; exact .inr ⟨k, rfl, h.symm⟩

@[simp] theorem guarded_none (t : State) : guarded none t = .ok t := rfl

@[simp] theorem guarded_some (k : FaultKind) (t : State) : guarded (some k) t = .error k := rfl

/-- A guarded state is the state itself where the check passed, and the check's fault where it did not. -/
theorem guarded_ok {check : Option FaultKind} {t u : State} :
    guarded check t = .ok u ↔ check = none ∧ t = u := by
  cases check <;> simp

theorem guarded_error {check : Option FaultKind} {t : State} {k : FaultKind} :
    guarded check t = .error k ↔ check = some k := by
  cases check <;> simp

end Sys2Proof.Machine
end

