-- ==== Sys2Proof/Laws/Display.lean ====
section
/-! SUPPORT. What the parts of the display compositor do (R190): one pixel, one row of bits, and how the rows of a
sprite divide into the first row and the rest. -/

namespace Sys2Proof.Machine

/-! ## One pixel -/

theorem Canvas.get_plot (c : Canvas) {x y : Nat} (hx : x < 64) (hy : y < 32) (b : Bool) (cx cy : Nat) :
    (c.plot x y b).pix.get cx cy = ((decide (cx = x ∧ cy = y) && b) ^^ c.pix.get cx cy) := by
  simp only [Canvas.plot, Pixels.get_put _ hx hy]
  by_cases h : cx = x ∧ cy = y
  · obtain ⟨rfl, rfl⟩ := h; simp
  · simp [h]

theorem Canvas.collision_plot (c : Canvas) (x y : Nat) (b : Bool) :
    (c.plot x y b).collision = (c.collision || (b && c.pix.get x y)) := rfl

/-! ## One row of bits -/

/-- Bits drawn from column `x` on: pixel (cx, y) is XORed with bit cx - x. -/
theorem Canvas.get_drawBits (c : Canvas) (x : Nat) {y : Nat} (hy : y < 32) (bits : List Bool) {cx : Nat} (cy : Nat)
    (hc : cx < 64) : (c.drawBits x y bits).pix.get cx cy =
      ((decide (x ≤ cx ∧ cy = y) && bits.getD (cx - x) false) ^^ c.pix.get cx cy) := by
  induction bits generalizing c x with
  | nil => simp [Canvas.drawBits]
  | cons b bs ih =>
    simp only [Canvas.drawBits]
    split
    · have : ¬ x ≤ cx := by omega
      simp [this]
    · rw [ih, Canvas.get_plot _ (by omega) hy]
      by_cases h : x = cx
      · subst h; simp
      · by_cases h2 : x + 1 ≤ cx
        · have h3 : ¬ cx = x := by omega
          have h4 : x ≤ cx := by omega
          obtain ⟨k, rfl⟩ : ∃ k, cx = x + 1 + k := ⟨cx - (x + 1), by omega⟩
          simp [show x + 1 + k - x = k + 1 by omega, h3, h4]
        · have h3 : ¬ cx = x := by omega
          have h4 : ¬ x ≤ cx := by omega
          have h5 : ¬ x < cx := by omega
          simp [h3, h4, h5]

theorem Canvas.collision_drawBits (c : Canvas) (x : Nat) {y : Nat} (hy : y < 32) (bits : List Bool) :
    (c.drawBits x y bits).collision = true ↔ c.collision = true ∨
      ∃ cx, x ≤ cx ∧ cx < 64 ∧ bits.getD (cx - x) false = true ∧ c.pix.get cx y = true := by
  induction bits generalizing c x with
  | nil => simp [Canvas.drawBits]
  | cons b bs ih =>
    simp only [Canvas.drawBits]
    split
    · constructor
      · exact .inl
      · rintro (h | ⟨cx, h1, h2, _⟩)
        · exact h
        · omega
    · rw [ih, Canvas.collision_plot]
      simp only [Canvas.get_plot _ (show x < 64 by omega) hy, Bool.or_eq_true, Bool.and_eq_true]
      constructor
      · rintro ((h | h) | ⟨cx, h1, h2, h3, h4⟩)
        · exact .inl h
        · exact .inr ⟨x, le_rfl, by omega, by simpa using h⟩
        · refine .inr ⟨cx, by omega, h2, ?_, ?_⟩
          · rw [show cx - x = cx - (x + 1) + 1 by omega]; simpa using h3
          · simpa [show ¬ cx = x by omega] using h4
      · rintro (h | ⟨cx, h1, h2, h3, h4⟩)
        · exact .inl (.inl h)
        · by_cases h : cx = x
          · subst h; exact .inl (.inr ⟨by simpa using h3, h4⟩)
          · refine .inr ⟨cx, by omega, h2, ?_, ?_⟩
            · rw [show cx - x = cx - (x + 1) + 1 by omega] at h3; simpa using h3
            · simpa [h] using h4

/-- Bit `k` of a sprite row counts from the left: bit 7 - k of the byte. -/
theorem spriteBits_getD (b : Byte) (k : Nat) :
    (spriteBits b).getD k false = (decide (k < 8) && b.getLsbD (7 - k)) := by
  by_cases h : k < 8 <;> simp [spriteBits, List.getD_eq_getElem?_getD, h]

/-! ## The pixels under a sprite -/

/-- On its own screen row, the first row of a sprite covers the pixels under its set bits. -/
theorem spriteCovers_first (row : Nat → Byte) (n x0 y x : Nat) :
    spriteCovers row (n + 1) x0 y x y = (decide (x0 ≤ x) && (spriteBits (row 0)).getD (x - x0) false) := by
  rw [spriteBits_getD]
  unfold spriteCovers
  by_cases h : x0 ≤ x ∧ x < x0 + 8
  · simp [h, show x - x0 < 8 by omega]
  · by_cases h1 : x0 ≤ x
    · have : ¬ x < x0 + 8 := by omega
      have h2 : ¬ x - x0 < 8 := by omega
      simp [this, h2]
    · simp [h1]

/-- Elsewhere, a sprite covers what its rows after the first cover one row further down. -/
theorem spriteCovers_rest (row : Nat → Byte) (n x0 y0 x : Nat) {y : Nat} (h : y ≠ y0) :
    spriteCovers row (n + 1) x0 y0 x y = spriteCovers (fun j => row (j + 1)) n x0 (y0 + 1) x y := by
  unfold spriteCovers
  by_cases hy : y0 < y
  · rw [show y - y0 = y - (y0 + 1) + 1 by omega]
    congr 1
    simp only [decide_eq_decide]
    omega
  · have h1 : ¬ (x0 ≤ x ∧ x < x0 + 8 ∧ y0 ≤ y ∧ y < y0 + (n + 1)) := by omega
    have h2 : ¬ (x0 ≤ x ∧ x < x0 + 8 ∧ y0 + 1 ≤ y ∧ y < y0 + 1 + n) := by omega
    rw [decide_eq_false h1, decide_eq_false h2]; rfl

/-- A sprite covers no pixel above its origin. -/
theorem spriteCovers_above (row : Nat → Byte) (n x0 x : Nat) {y0 y : Nat} (h : y < y0) :
    spriteCovers row n x0 y0 x y = false := by
  have h1 : ¬ (x0 ≤ x ∧ x < x0 + 8 ∧ y0 ≤ y ∧ y < y0 + n) := by omega
  simp [spriteCovers, h1]

end Sys2Proof.Machine
end

