-- ==== Sys2Proof/Laws/Meanings.lean ====
section
/-! SUPPORT. The meanings that can raise a fault or that look at an input, each case once: the state they leave
where they complete, and the fault they raise where they do not. -/

namespace Sys2Proof.Machine

/-! ## 00EE and 2NNN -/

theorem exec00EE_ok {s : State} (h : s.spFree.val ≠ 16) : exec .op00EE s = .next { s with
    pc := s.stack[s.spFree.val]'(by omega)
    spFree := ⟨s.spFree.val + 1, by omega⟩ } := by
  rw [exec, exec00EE, State.popPc_ok h]; rfl

theorem exec00EE_empty {s : State} (h : s.spFree.val = 16) :
    exec .op00EE s = .next (s.raiseIn .op00EE .stackUnderflow) := by
  rw [exec, exec00EE, State.popPc_empty h]; rfl

theorem exec2NNN_ok {s : State} (h : s.spFree.val ≠ 0) (nnn : Addr12) : exec (.op2NNN nnn) s = .next { s with
    pc := zextAddr nnn
    stack := s.stack.set (s.spFree.val - 1) s.pc (by omega)
    spFree := ⟨s.spFree.val - 1, by omega⟩ } := by
  rw [exec, exec2NNN, State.push_ok h]; rfl

theorem exec2NNN_full {s : State} (h : s.spFree.val = 0) (nnn : Addr12) :
    exec (.op2NNN nnn) s = .next (s.raiseIn (.op2NNN nnn) .stackOverflow) := by
  rw [exec, exec2NNN, State.push_full h]; rfl

/-! ## The key digit of EX9E, EXA1, FX29 -/

theorem execFX29_ok {s : State} {x : RegNo} {d : Fin 16} (h : keyDigit (s.reg x) = .ok d) :
    exec (.opFX29 x) s = .next { s with index := glyphAddress d } := by
  rw [exec, execFX29, h]; rfl

theorem execFX29_fault {s : State} {x : RegNo} {k : FaultKind} (h : keyDigit (s.reg x) = .error k) :
    exec (.opFX29 x) s = .next (s.raiseIn (.opFX29 x) k) := by
  rw [exec, execFX29, h]; rfl

theorem execEX9E_ok {s : State} {x : RegNo} {d : Fin 16} (h : keyDigit (s.reg x) = .ok d) :
    exec (.opEX9E x) s = .next (s.skipIf (keyIsDown s.env.inputs d)) := by
  rw [exec, execEX9E, h]; rfl

theorem execEX9E_fault {s : State} {x : RegNo} {k : FaultKind} (h : keyDigit (s.reg x) = .error k) :
    exec (.opEX9E x) s = .next (s.raiseIn (.opEX9E x) k) := by
  rw [exec, execEX9E, h]; rfl

theorem execEXA1_ok {s : State} {x : RegNo} {d : Fin 16} (h : keyDigit (s.reg x) = .ok d) :
    exec (.opEXA1 x) s = .next (s.skipIf (!keyIsDown s.env.inputs d)) := by
  rw [exec, execEXA1, h]; rfl

theorem execEXA1_fault {s : State} {x : RegNo} {k : FaultKind} (h : keyDigit (s.reg x) = .error k) :
    exec (.opEXA1 x) s = .next (s.raiseIn (.opEXA1 x) k) := by
  rw [exec, execEXA1, h]; rfl

/-! ## The key wait -/

theorem execFX0A_some {s : State} {k : Fin 16} (h : s.env.inputs.keyLatest = some k) (x : RegNo) :
    exec (.opFX0A x) s = .next (s.setReg x (BitVec.ofNat 8 k.val)) := by
  rw [exec, execFX0A, h]

theorem execFX0A_none {s : State} (h : s.env.inputs.keyLatest = none) (x : RegNo) :
    exec (.opFX0A x) s = .next { s with pc := s.pc - 2 } := by
  rw [exec, execFX0A, h]

/-! ## The memory instructions -/

theorem execFX33_ok {s : State} {x : RegNo} (h : checkWrite s.index.toNat 3 = none) :
    exec (.opFX33 x) s =
      .next { s with mem := s.mem.writeBytes s.index.toNat (decimalDigits (s.reg x)) } := by
  rw [exec, execFX33, State.base, h]; rfl

theorem execFX33_fault {s : State} {x : RegNo} {k : FaultKind} (h : checkWrite s.index.toNat 3 = some k) :
    exec (.opFX33 x) s = .next (s.raiseIn (.opFX33 x) k) := by
  rw [exec, execFX33, State.base, h]; rfl

theorem execFX55_ok {s : State} {x : RegNo} (h : checkWrite s.index.toNat (x.toNat + 1) = none) :
    exec (.opFX55 x) s = .next { s with
      mem := s.mem.writeBytes s.index.toNat (s.regsTo x)
      index := s.blockIndex x } := by
  rw [exec, execFX55, State.base, blockCount, h]; rfl

theorem execFX55_fault {s : State} {x : RegNo} {k : FaultKind}
    (h : checkWrite s.index.toNat (x.toNat + 1) = some k) :
    exec (.opFX55 x) s = .next (s.raiseIn (.opFX55 x) k) := by
  rw [exec, execFX55, State.base, blockCount, h]; rfl

theorem execFX65_ok {s : State} {x : RegNo} (h : checkRead s.index.toNat (x.toNat + 1) = none) :
    exec (.opFX65 x) s = .next { s with
      v := loadFrom s.v 0 (s.mem.readBytes s.index.toNat (x.toNat + 1))
      index := s.blockIndex x } := by
  rw [exec, execFX65, State.base, blockCount, h]; rfl

theorem execFX65_fault {s : State} {x : RegNo} {k : FaultKind}
    (h : checkRead s.index.toNat (x.toNat + 1) = some k) :
    exec (.opFX65 x) s = .next (s.raiseIn (.opFX65 x) k) := by
  rw [exec, execFX65, State.base, blockCount, h]; rfl

/-- `I` after a block transfer that fits in memory: it never wraps (R174, R175). -/
theorem State.blockIndex_toNat {s : State} {x : RegNo} (h : s.index.toNat + x.toNat ≤ 0xFFF) :
    (s.blockIndex x).toNat =
      if s.quirk.memChangeIndex then s.index.toNat + x.toNat + 1 else s.index.toNat := by
  unfold State.blockIndex blockCount
  split
  · simp; omega
  · rfl

/-! ## The draw -/

theorem execDXYN_ok {s : State} {x y : RegNo} {n : BitVec 4}
    (h : n.toNat = 0 ∨ s.index.toNat + n.toNat - 1 ≤ 0xFFF) :
    exec (.opDXYN x y n) s = .next
      { s.setReg vf (flagByte (composite s.pix (s.originX x) (s.originY y)
          (s.mem.readBytes s.index.toNat n.toNat)).collision) with
        pix := (composite s.pix (s.originX x) (s.originY y)
          (s.mem.readBytes s.index.toNat n.toNat)).pix } := by
  rw [exec, execDXYN]
  by_cases h0 : n.toNat = 0
  · simp [h0, State.base]
  · have : checkRead s.index.toNat n.toNat = none := checkRead_eq_none.mpr (by omega)
    simp [h0, this, State.base]

theorem execDXYN_fault {s : State} {x y : RegNo} {n : BitVec 4} (h0 : 0 < n.toNat)
    (h : 0xFFF < s.index.toNat + n.toNat - 1) : exec (.opDXYN x y n) s =
      .next (s.raiseIn (.opDXYN x y n) (.addressOutOfRange s.index.toNat n.toNat)) := by
  have : checkRead s.base n.toNat = some (.addressOutOfRange s.index.toNat n.toNat) := checkRead_fault h
  rw [exec, execDXYN]
  simp only [if_neg (show n.toNat ≠ 0 by omega), this, guarded_some, answer_error]

end Sys2Proof.Machine
end

