-- ==== Sys2Proof/Laws/PerInstr.lean ====
section
/-! SUPPORT. Per-instruction family `EncodesValid`: the word of every instruction satisfies Valid (R94, R95), one
lemma per constructor. -/

namespace Sys2Proof.Laws.EncodesValid

/-- The instruction's word is valid. -/
def Statement (i : Instr) : Prop := validWord (encode i) = true

/-- Valid, read through the fields of the word (R94). -/
theorem validWord_iff_fields (w : Word) : validWord w =
    (if fieldOP w == 0x0 then validGroup0 w
    else if fieldOP w == 0x5 || fieldOP w == 0x9 then fieldN w == 0x0
    else if fieldOP w == 0x8 then validGroup8 w
    else if fieldOP w == 0xE then (fieldNN w == 0x9E || fieldNN w == 0xA1)
    else if fieldOP w == 0xF then validGroupF w
    else true) := rfl

/-- Groups whose every word is valid (R94). -/
theorem valid_of_open_group {w : Word} (h0 : fieldOP w ≠ 0x0) (h5 : fieldOP w ≠ 0x5) (h9 : fieldOP w ≠ 0x9)
    (h8 : fieldOP w ≠ 0x8) (hE : fieldOP w ≠ 0xE) (hF : fieldOP w ≠ 0xF) : validWord w = true := by
  simp_all [validWord_iff_fields]

/-- Groups 5 and 9 with a zero low nibble (R94). -/
theorem valid_of_group59 {w : Word} (h : fieldOP w = 0x5 ∨ fieldOP w = 0x9) (hn : fieldN w = 0x0) :
    validWord w = true := by
  rcases h with h | h <;> simp [validWord_iff_fields, h, hn]

/-- Group 8 by its low nibble (R94). -/
theorem valid_of_group8 {w : Word} (h : fieldOP w = 0x8)
    (hn : fieldN w ∈ [0x0#4, 0x1#4, 0x2#4, 0x3#4, 0x4#4, 0x5#4, 0x6#4, 0x7#4, 0xE#4]) :
    validWord w = true := by
  have : validGroup8 w = true := by
    simp only [List.mem_cons, List.not_mem_nil, or_false] at hn
    simp only [validGroup8, Bool.or_eq_true, beq_iff_eq]
    simp only [fieldN] at hn
    tauto
  simp [validWord_iff_fields, h, this]

/-- Group E by its low byte (R94). -/
theorem valid_of_groupE {w : Word} (h : fieldOP w = 0xE) (hb : fieldNN w = 0x9E ∨ fieldNN w = 0xA1) :
    validWord w = true := by
  rcases hb with hb | hb <;> simp [validWord_iff_fields, h, hb]

/-- Group F by its low byte (R94). -/
theorem valid_of_groupF {w : Word} (h : fieldOP w = 0xF)
    (hb : fieldNN w ∈ [0x07#8, 0x0A#8, 0x15#8, 0x18#8, 0x1E#8, 0x29#8, 0x33#8, 0x55#8, 0x65#8]) :
    validWord w = true := by
  have : validGroupF w = true := by
    simp only [List.mem_cons, List.not_mem_nil, or_false] at hb
    simp only [validGroupF, Bool.or_eq_true, beq_iff_eq]
    simp only [fieldNN] at hb
    tauto
  simp [validWord_iff_fields, h, this]

theorem op00E0 : Statement .op00E0 := show validWord (encode .op00E0) = true by decide
theorem op00EE : Statement .op00EE := show validWord (encode .op00EE) = true by decide
theorem op1NNN (nnn : Addr12) : Statement (.op1NNN nnn) :=
  valid_of_open_group (by simp [encode]) (by simp [encode]) (by simp [encode])
    (by simp [encode]) (by simp [encode]) (by simp [encode])
theorem op2NNN (nnn : Addr12) : Statement (.op2NNN nnn) :=
  valid_of_open_group (by simp [encode]) (by simp [encode]) (by simp [encode])
    (by simp [encode]) (by simp [encode]) (by simp [encode])
theorem op3XNN (x : RegNo) (nn : Byte) : Statement (.op3XNN x nn) :=
  valid_of_open_group (by simp [encode]) (by simp [encode]) (by simp [encode])
    (by simp [encode]) (by simp [encode]) (by simp [encode])
theorem op4XNN (x : RegNo) (nn : Byte) : Statement (.op4XNN x nn) :=
  valid_of_open_group (by simp [encode]) (by simp [encode]) (by simp [encode])
    (by simp [encode]) (by simp [encode]) (by simp [encode])
theorem op5XY0 (x y : RegNo) : Statement (.op5XY0 x y) :=
  valid_of_group59 (by simp [encode]) (by simp [encode])
theorem op6XNN (x : RegNo) (nn : Byte) : Statement (.op6XNN x nn) :=
  valid_of_open_group (by simp [encode]) (by simp [encode]) (by simp [encode])
    (by simp [encode]) (by simp [encode]) (by simp [encode])
theorem op7XNN (x : RegNo) (nn : Byte) : Statement (.op7XNN x nn) :=
  valid_of_open_group (by simp [encode]) (by simp [encode]) (by simp [encode])
    (by simp [encode]) (by simp [encode]) (by simp [encode])
theorem op8XY0 (x y : RegNo) : Statement (.op8XY0 x y) :=
  valid_of_group8 (by simp [encode]) (by simp [encode])
theorem op8XY1 (x y : RegNo) : Statement (.op8XY1 x y) :=
  valid_of_group8 (by simp [encode]) (by simp [encode])
theorem op8XY2 (x y : RegNo) : Statement (.op8XY2 x y) :=
  valid_of_group8 (by simp [encode]) (by simp [encode])
theorem op8XY3 (x y : RegNo) : Statement (.op8XY3 x y) :=
  valid_of_group8 (by simp [encode]) (by simp [encode])
theorem op8XY4 (x y : RegNo) : Statement (.op8XY4 x y) :=
  valid_of_group8 (by simp [encode]) (by simp [encode])
theorem op8XY5 (x y : RegNo) : Statement (.op8XY5 x y) :=
  valid_of_group8 (by simp [encode]) (by simp [encode])
theorem op8XY6 (x y : RegNo) : Statement (.op8XY6 x y) :=
  valid_of_group8 (by simp [encode]) (by simp [encode])
theorem op8XY7 (x y : RegNo) : Statement (.op8XY7 x y) :=
  valid_of_group8 (by simp [encode]) (by simp [encode])
theorem op8XYE (x y : RegNo) : Statement (.op8XYE x y) :=
  valid_of_group8 (by simp [encode]) (by simp [encode])
theorem op9XY0 (x y : RegNo) : Statement (.op9XY0 x y) :=
  valid_of_group59 (by simp [encode]) (by simp [encode])
theorem opANNN (nnn : Addr12) : Statement (.opANNN nnn) :=
  valid_of_open_group (by simp [encode]) (by simp [encode]) (by simp [encode])
    (by simp [encode]) (by simp [encode]) (by simp [encode])
theorem opBNNN (nnn : Addr12) : Statement (.opBNNN nnn) :=
  valid_of_open_group (by simp [encode]) (by simp [encode]) (by simp [encode])
    (by simp [encode]) (by simp [encode]) (by simp [encode])
theorem opCXNN (x : RegNo) (nn : Byte) : Statement (.opCXNN x nn) :=
  valid_of_open_group (by simp [encode]) (by simp [encode]) (by simp [encode])
    (by simp [encode]) (by simp [encode]) (by simp [encode])
theorem opDXYN (x y : RegNo) (n : BitVec 4) : Statement (.opDXYN x y n) :=
  valid_of_open_group (by simp [encode]) (by simp [encode]) (by simp [encode])
    (by simp [encode]) (by simp [encode]) (by simp [encode])
theorem opEX9E (x : RegNo) : Statement (.opEX9E x) :=
  valid_of_groupE (by simp [encode]) (by simp [encode])
theorem opEXA1 (x : RegNo) : Statement (.opEXA1 x) :=
  valid_of_groupE (by simp [encode]) (by simp [encode])
theorem opFX07 (x : RegNo) : Statement (.opFX07 x) :=
  valid_of_groupF (by simp [encode]) (by simp [encode])
theorem opFX0A (x : RegNo) : Statement (.opFX0A x) :=
  valid_of_groupF (by simp [encode]) (by simp [encode])
theorem opFX15 (x : RegNo) : Statement (.opFX15 x) :=
  valid_of_groupF (by simp [encode]) (by simp [encode])
theorem opFX18 (x : RegNo) : Statement (.opFX18 x) :=
  valid_of_groupF (by simp [encode]) (by simp [encode])
theorem opFX1E (x : RegNo) : Statement (.opFX1E x) :=
  valid_of_groupF (by simp [encode]) (by simp [encode])
theorem opFX29 (x : RegNo) : Statement (.opFX29 x) :=
  valid_of_groupF (by simp [encode]) (by simp [encode])
theorem opFX33 (x : RegNo) : Statement (.opFX33 x) :=
  valid_of_groupF (by simp [encode]) (by simp [encode])
theorem opFX55 (x : RegNo) : Statement (.opFX55 x) :=
  valid_of_groupF (by simp [encode]) (by simp [encode])
theorem opFX65 (x : RegNo) : Statement (.opFX65 x) :=
  valid_of_groupF (by simp [encode]) (by simp [encode])

end Sys2Proof.Laws.EncodesValid
end

