-- ==== Sys2Proof/Laws/Step.lean ====
section
/-! SUPPORT. What exec and step can do, said once: every instruction answers a next state, which leaves QUIRK,
TONE and the surroundings alone and either completes or is what its raised fault leaves; and a step is the event
the schedule or the free choice gives. -/

namespace Sys2Proof.Machine

/-! ## exec -/

/-- A state as the execute stage of a completed instruction can leave it: QUIRK, HALT, FAULT, TONE and the
surroundings are as they were. -/
def Completed (s t : State) : Prop :=
  t.quirk = s.quirk ∧ t.halt = s.halt ∧ t.fault = s.fault ∧ t.tone = s.tone ∧ t.env = s.env

/-- An answer completes, or is what its fault leaves. -/
theorem answer_cases {i : Instr} {s t : State} {r : Except FaultKind State} (h : answer i s r = .next t)
    (hr : ∀ u, r = .ok u → Completed s u) : Completed s t ∨ ∃ k, r = .error k ∧ t = s.raiseIn i k := by
  rcases answer_next h with h | h
  · exact .inl (hr _ h)
  · exact .inr h

/-- Every instruction answers a next state, in every state. -/
theorem exec_answers (i : Instr) (s : State) : ∃ t, exec i s = .next t := by
  cases i <;> exact ⟨_, rfl⟩

/-- An instruction completes, or its state is what its raised fault leaves. -/
theorem exec_cases {i : Instr} {s t : State} (h : exec i s = .next t) :
    Completed s t ∨ ∃ k, t = s.raiseIn i k := by
  have fall {j : Instr} {r : Except FaultKind State} (h : answer j s r = .next t)
      (hr : ∀ u, r = .ok u → Completed s u) : Completed s t ∨ ∃ k, t = s.raiseIn j k :=
    (answer_cases h hr).imp id fun ⟨k, _, e⟩ => ⟨k, e⟩
  cases i
  case op00EE =>
    refine fall h fun u hu => ?_
    unfold State.popPc at hu
    split at hu <;> cases hu
    exact ⟨rfl, rfl, rfl, rfl, rfl⟩
  case op2NNN nnn =>
    refine fall h fun u hu => ?_
    unfold State.push at hu
    split at hu
    · rename_i hp
      split at hp <;> cases hp
      cases hu
      exact ⟨rfl, rfl, rfl, rfl, rfl⟩
    · cases hu
  case opFX29 x =>
    refine fall h fun u hu => ?_
    split at hu <;> cases hu
    exact ⟨rfl, rfl, rfl, rfl, rfl⟩
  case opEX9E x =>
    refine fall h fun u hu => ?_
    split at hu <;> cases hu
    exact ⟨rfl, rfl, rfl, rfl, rfl⟩
  case opEXA1 x =>
    refine fall h fun u hu => ?_
    split at hu <;> cases hu
    exact ⟨rfl, rfl, rfl, rfl, rfl⟩
  case opFX33 x => exact fall h fun u hu => (guarded_ok.mp hu).2 ▸ ⟨rfl, rfl, rfl, rfl, rfl⟩
  case opFX55 x => exact fall h fun u hu => (guarded_ok.mp hu).2 ▸ ⟨rfl, rfl, rfl, rfl, rfl⟩
  case opFX65 x => exact fall h fun u hu => (guarded_ok.mp hu).2 ▸ ⟨rfl, rfl, rfl, rfl, rfl⟩
  case opDXYN x y n => exact fall h fun u hu => (guarded_ok.mp hu).2 ▸ ⟨rfl, rfl, rfl, rfl, rfl⟩
  case opFX0A x =>
    left
    simp only [exec, execFX0A, Host.Outcome.next.injEq] at h
    subst h
    cases s.env.inputs.keyLatest <;> exact ⟨rfl, rfl, rfl, rfl, rfl⟩
  all_goals
    left
    cases h
    exact ⟨rfl, rfl, rfl, rfl, rfl⟩

/-! ## The next event -/

theorem State.nextEvent_cons {s : State} {e : Event} {es : List Event} (h : s.env.schedule = e :: es) :
    s.nextEvent = e := by
  simp [State.nextEvent, h]

/-- The free choice is a cycle or a tick, never a host action (log 3). -/
theorem State.nextEvent_empty {s : State} (h : s.env.schedule = []) :
    s.nextEvent = .tick ∨ ∃ signals, s.nextEvent = .cycle signals := by
  simp only [State.nextEvent, h]
  split
  · exact .inr ⟨_, rfl⟩
  · split
    · exact .inl rfl
    · exact .inr ⟨_, rfl⟩

/-! ## The timer agent and the host's load -/

/-- A timer counts down to 0 and stays there (R233, R234). -/
theorem countDown_toNat (t : Byte) : (countDown t).toNat = t.toNat - 1 := by
  unfold countDown
  split
  · subst t; rfl
  · rename_i h
    have h0 : t.toNat ≠ 0 := fun e => h (BitVec.eq_of_toNat_eq (by simpa using e))
    rw [BitVec.toNat_sub_of_le (by simp [BitVec.le_def]; omega)]; rfl

/-- A load of an image that fits (R261). -/
theorem State.hostLoad_fits {s : State} {bytes : List Byte} (h : imageFits bytes = true) :
    s.hostLoad (some bytes) = { s with
      mem := s.mem.writeBytes 0x200 bytes
      pc := 0x0200
      env := { s.env with loadable := false } } := by
  simp [State.hostLoad, h]

/-- A load that cannot be supplied or does not fit (R223). -/
theorem State.hostLoad_fails {s : State} {image : Option (List Byte)}
    (h : ∀ bytes, image = some bytes → imageFits bytes = false) :
    s.hostLoad image =
      { s with env := { s.env with loadable := false } }.raise .programLoadFailure s.pc none := by
  cases image with
  | none => rfl
  | some bytes => simp [State.hostLoad, h bytes rfl]

/-! ## Steps -/

theorem step_cycle {s : State} {signals : Inputs} (he : s.nextEvent = .cycle signals) (hh : s.halt = false) :
    step s = cycle (s.dropEvent.begin signals) := by
  simp [step, he, runEvent, hh]

theorem step_tick {s : State} (he : s.nextEvent = .tick) (hh : s.halt = false) :
    step s = .next s.dropEvent.tick := by
  simp [step, he, runEvent, hh]

theorem step_reset {s : State} {q : Quirk} (he : s.nextEvent = .reset q) :
    step s = .next (s.dropEvent.hostReset q) := by
  simp [step, he, runEvent]

/-- Taking an event leaves the load permission alone. -/
@[simp] theorem State.loadable_dropEvent (s : State) : s.dropEvent.env.loadable = s.env.loadable := by
  simp only [State.dropEvent]
  cases s.env.schedule <;> rfl

/-- Taking an event takes the first one off the schedule (log 3). -/
@[simp] theorem State.schedule_dropEvent (s : State) : s.dropEvent.env.schedule = s.env.schedule.tail := by
  simp only [State.dropEvent]
  cases s.env.schedule <;> rfl

theorem step_load {s : State} {image : Option (List Byte)} (he : s.nextEvent = .load image)
    (hl : s.env.loadable = true) : step s = .next (s.dropEvent.hostLoad image) := by
  simp [step, he, runEvent, hl]

theorem step_load_refused {s : State} {image : Option (List Byte)} (he : s.nextEvent = .load image)
    (hl : s.env.loadable = false) : step s = .refused .loadNotAllowed := by
  simp [step, he, runEvent, hl]

/-- A halted machine has neither cycle nor tick (R229). -/
theorem step_halted {s : State} (hh : s.halt = true)
    (he : s.nextEvent = .tick ∨ ∃ signals, s.nextEvent = .cycle signals) : step s = .fault .halted := by
  rcases he with he | ⟨g, he⟩ <;> simp [step, he, runEvent, hh]

/-- The word a cycle from `s` fetches (R63). -/
def State.fetched (s : State) : Word := wordOfBytes (s.mem.read s.pc.toNat) (s.mem.read (s.pc.toNat + 1))

/-- A cycle whose fetch is in memory runs the fetched word. -/
theorem cycle_fetched {s : State} (h : s.pc.toNat ≤ 0xFFE) : cycle s = runWord s.fetched s := by
  rw [cycle, fetchWord_ok _ h]; rfl

/-- A cycle whose fetch is not in memory faults before `PC` moves (R224). -/
theorem cycle_fetch_fault {s : State} (h : 0xFFE < s.pc.toNat) :
    cycle s = .next (s.raise (.addressOutOfRange s.pc.toNat 2) s.pc none) := by
  rw [cycle, fetchWord_error _ h]

theorem runWord_ok {w : Word} {i : Instr} (h : decode w = .ok i) (s : State) :
    runWord w s = finishCycle (exec i s.advance) := by
  rw [runWord, h]

theorem runWord_invalid {w : Word} {r : Reject} (h : decode w = .error r) (s : State) :
    runWord w s = .next (s.advance.raise .invalidInstruction s.pc (some w)) := by
  rw [runWord, h]

/-- Everything a cycle can do (R120): a fetch fault, an invalid word, or the execution of the decoded
instruction and then the TONE update. -/
theorem cycle_cases {s t : State} (h : cycle s = .next t) :
    (0xFFE < s.pc.toNat ∧ t = s.raise (.addressOutOfRange s.pc.toNat 2) s.pc none) ∨
    (s.pc.toNat ≤ 0xFFE ∧
      ((∃ r, decode s.fetched = .error r ∧ t = s.advance.raise .invalidInstruction s.pc (some s.fetched)) ∨
       ∃ i u, decode s.fetched = .ok i ∧ exec i s.advance = .next u ∧ t = u.complete)) := by
  by_cases hp : s.pc.toNat ≤ 0xFFE
  · rw [cycle_fetched hp] at h
    refine .inr ⟨hp, ?_⟩
    cases hd : decode s.fetched with
    | ok i =>
      obtain ⟨u, hu⟩ := exec_answers i s.advance
      rw [runWord_ok hd, hu] at h
      cases h
      exact .inr ⟨i, u, rfl, hu, rfl⟩
    | error r =>
      rw [runWord_invalid hd] at h
      cases h
      exact .inl ⟨r, rfl, rfl⟩
  · rw [cycle_fetch_fault (by omega)] at h
    cases h
    exact .inl ⟨by omega, rfl⟩

/-- Everything a step that answers a next state can be: a cycle or a tick of a running machine, a reset, or the
one allowed load. -/
theorem step_cases {s t : State} (h : step s = .next t) :
    (∃ signals, s.nextEvent = .cycle signals ∧ s.halt = false ∧
      cycle (s.dropEvent.begin signals) = .next t) ∨
    (s.nextEvent = .tick ∧ s.halt = false ∧ t = s.dropEvent.tick) ∨
    (∃ q, s.nextEvent = .reset q ∧ t = s.dropEvent.hostReset q) ∨
    (∃ image, s.nextEvent = .load image ∧ s.env.loadable = true ∧ t = s.dropEvent.hostLoad image) := by
  cases he : s.nextEvent with
  | cycle g =>
    cases hh : s.halt with
    | true => rw [step_halted hh (.inr ⟨g, he⟩)] at h; cases h
    | false => rw [step_cycle he hh] at h; exact .inl ⟨g, rfl, rfl, h⟩
  | tick =>
    cases hh : s.halt with
    | true => rw [step_halted hh (.inl he)] at h; cases h
    | false => rw [step_tick he hh] at h; cases h; exact .inr (.inl ⟨rfl, rfl, rfl⟩)
  | reset q => rw [step_reset he] at h; cases h; exact .inr (.inr (.inl ⟨q, rfl, rfl⟩))
  | load image =>
    cases hl : s.env.loadable with
    | true => rw [step_load he hl] at h; cases h; exact .inr (.inr (.inr ⟨image, rfl, rfl, rfl⟩))
    | false => rw [step_load_refused he hl] at h; cases h

/-! ## The surroundings -/

/-- No instruction touches the surroundings. -/
theorem exec_env {i : Instr} {s t : State} (h : exec i s = .next t) : t.env = s.env := by
  rcases exec_cases h with h | ⟨k, rfl⟩
  · exact h.2.2.2.2
  · rfl

/-- A load, successful or not, takes the load permission away and leaves the rest of the surroundings. -/
@[simp] theorem State.env_hostLoad (s : State) (image : Option (List Byte)) :
    (s.hostLoad image).env = { s.env with loadable := false } := by
  simp only [State.hostLoad]
  split
  · rfl
  · split <;> rfl

/-- What a step does to the surroundings: it takes the event, and then sets the input sample and ends the load
permission (a cycle), nothing more (a tick), gives the permission (a reset), or ends it (a load). -/
theorem step_env {s t : State} (h : step s = .next t) :
    (∃ signals, s.nextEvent = .cycle signals ∧
      t.env = { s.dropEvent.env with inputs := signals, loadable := false }) ∨
    (s.nextEvent = .tick ∧ t.env = s.dropEvent.env) ∨
    (∃ q, s.nextEvent = .reset q ∧ t.env = { s.dropEvent.env with loadable := true }) ∨
    (∃ image, s.nextEvent = .load image ∧ t.env = { s.dropEvent.env with loadable := false }) := by
  rcases step_cases h with ⟨g, he, _, hc⟩ | ⟨he, _, rfl⟩ | ⟨q, he, rfl⟩ | ⟨image, he, _, rfl⟩
  · refine .inl ⟨g, he, ?_⟩
    rcases cycle_cases hc with ⟨_, rfl⟩ | ⟨_, ⟨r, _, rfl⟩ | ⟨i, u, _, hu, rfl⟩⟩
    · rfl
    · rfl
    · exact exec_env hu
  · exact .inr (.inl ⟨he, rfl⟩)
  · exact .inr (.inr (.inl ⟨q, he, rfl⟩))
  · exact .inr (.inr (.inr ⟨image, he, State.env_hostLoad _ _⟩))

end Sys2Proof.Machine
end

