-- ==== Sys2Proof/Tests/Slice0.lean ====
section
/-! SUPPORT. Tests of the model against the spec's own vectors (95_test_vectors.md), the well-formedness smoke
test, the decoding of one hand-written word per constructor, and a witness for every statement that has
hypotheses. -/

namespace Sys2Proof.Tests

open Sys2Proof Sys2Proof.Machine

/-! ## Well-formedness: each check refuses an ill-formed term (R94, R261) -/

theorem test_group0_refuses : validWord 0x0000 = false ∧ validWord 0x00E1 = false ∧ validWord 0x0FFF = false := by
  decide

theorem test_group5_refuses : validWord 0x5121 = false ∧ validWord 0x5120 = true := by decide

theorem test_group9_refuses : validWord 0x9121 = false ∧ validWord 0x9120 = true := by decide

theorem test_group8_refuses : validWord 0x8AB8 = false ∧ validWord 0x8ABF = false ∧ validWord 0x8ABE = true := by
  decide

theorem test_groupE_refuses : validWord 0xE19F = false ∧ validWord 0xE1A0 = false ∧ validWord 0xE19E = true := by
  decide

theorem test_groupF_refuses : validWord 0xF100 = false ∧ validWord 0xF185 = false ∧ validWord 0xF165 = true := by
  decide

theorem test_image_too_long : imageFits (List.replicate 3585 0) = false := by
  simp only [imageFits, List.length_replicate]; decide

theorem test_image_fits : imageFits (List.replicate 3584 0) = true := by
  simp only [imageFits, List.length_replicate]; decide

/-! ## Decoding: one word per constructor, written out from the formats of R92 and the rows of R95 -/

theorem test_decode_control :
    decode 0b0000_0000_1110_1110#16 = .ok .op00EE ∧
    decode 0b0001_0010_0011_0100#16 = .ok (.op1NNN 0x234) ∧
    decode 0b0010_0010_0000_1110#16 = .ok (.op2NNN 0x20E) ∧
    decode 0b0011_0011_0010_1010#16 = .ok (.op3XNN 0x3 0x2A) ∧
    decode 0b0100_0011_0010_1010#16 = .ok (.op4XNN 0x3 0x2A) ∧
    decode 0b0101_0001_0010_0000#16 = .ok (.op5XY0 0x1 0x2) ∧
    decode 0b1001_0001_0010_0000#16 = .ok (.op9XY0 0x1 0x2) ∧
    decode 0b1011_0011_0000_0001#16 = .ok (.opBNNN 0x301) := by decide

theorem test_decode_alu :
    decode 0b0110_1010_0101_0101#16 = .ok (.op6XNN 0xA 0x55) ∧
    decode 0b0111_0000_0000_0011#16 = .ok (.op7XNN 0x0 0x03) ∧
    decode 0b1000_0001_0010_0000#16 = .ok (.op8XY0 0x1 0x2) ∧
    decode 0b1000_0001_0010_0001#16 = .ok (.op8XY1 0x1 0x2) ∧
    decode 0b1000_0001_0010_0010#16 = .ok (.op8XY2 0x1 0x2) ∧
    decode 0b1000_0001_0010_0011#16 = .ok (.op8XY3 0x1 0x2) ∧
    decode 0b1000_1010_1011_0100#16 = .ok (.op8XY4 0xA 0xB) ∧
    decode 0b1000_0001_0010_0101#16 = .ok (.op8XY5 0x1 0x2) ∧
    decode 0b1000_0001_0010_0110#16 = .ok (.op8XY6 0x1 0x2) ∧
    decode 0b1000_1010_1011_0111#16 = .ok (.op8XY7 0xA 0xB) ∧
    decode 0b1000_1010_1011_1110#16 = .ok (.op8XYE 0xA 0xB) ∧
    decode 0b1100_0011_0000_1111#16 = .ok (.opCXNN 0x3 0x0F) := by decide

theorem test_decode_index :
    decode 0b1010_0011_0000_0001#16 = .ok (.opANNN 0x301) ∧
    decode 0b1111_0010_0001_1110#16 = .ok (.opFX1E 0x2) ∧
    decode 0b1111_0100_0010_1001#16 = .ok (.opFX29 0x4) ∧
    decode 0b1111_0000_0011_0011#16 = .ok (.opFX33 0x0) ∧
    decode 0b1111_0010_0101_0101#16 = .ok (.opFX55 0x2) ∧
    decode 0b1111_0010_0110_0101#16 = .ok (.opFX65 0x2) := by decide

theorem test_decode_display :
    decode 0b0000_0000_1110_0000#16 = .ok .op00E0 ∧
    decode 0b1101_0001_0010_0101#16 = .ok (.opDXYN 0x1 0x2 0x5) := by decide

theorem test_decode_keypad_timers :
    decode 0b1110_0101_1001_1110#16 = .ok (.opEX9E 0x5) ∧
    decode 0b1110_0101_1010_0001#16 = .ok (.opEXA1 0x5) ∧
    decode 0b1111_0011_0000_0111#16 = .ok (.opFX07 0x3) ∧
    decode 0b1111_0101_0000_1010#16 = .ok (.opFX0A 0x5) ∧
    decode 0b1111_0011_0001_0101#16 = .ok (.opFX15 0x3) ∧
    decode 0b1111_0011_0001_1000#16 = .ok (.opFX18 0x3) := by decide

/-- The bytes are big-endian: 6A then 55 is 6A55, not 556A (95_test_vectors.md part 2.1). -/
theorem test_bytes_big_endian : decodeBytes [0x6A, 0x55, 0x00] = .ok (.op6XNN 0xA 0x55, [0x00]) := by decide

/-- One byte is no instruction (R90). -/
theorem test_bytes_truncated : decodeBytes [0x6A] = .error .truncated := by decide

/-- The host's word is the table's word (opcode_table.json numbers bit 0 least significant). -/
theorem test_table_word : decodeTableWord 16 0x8AB4 = some (.op8XY4 0xA 0xB) ∧ decodeTableWord 16 0x0000 = none := by
  decide

/-- Lines of the spec's programs P2, P3, P4 and P8 (95_test_vectors.md part 3). -/
theorem test_assembly :
    assembly (.op6XNN 0xA 0x03) = "LD VA, 0x03" ∧ assembly (.op2NNN 0x20E) = "CALL 0x20E" ∧
    assembly (.opFX65 0x2) = "LD V2, [I]" ∧ assembly (.opDXYN 0x0 0x1 0x1) = "DRW V0, V1, 0x1" ∧
    assembly (.op8XY6 0x1 0x2) = "SHR V1, V2" ∧ assembly (.opBNNN 0x20C) = "JP V0, 0x20C" := by decide

/-! ## One cycle from the vectors' start state -/

/-- No quirk. -/
def noQuirk : Quirk := ⟨false, false, false, false⟩

/-- The vectors' start state: reset, an empty image loaded, no quirk (95_test_vectors.md, conventions). -/
def booted : State := { State.reset with pc := 0x200, quirk := noQuirk, env := ⟨quietInputs, [], 0, false⟩ }

/-- `booted` with one general register set. -/
def booted1 (x : RegNo) (b : Byte) : State := booted.setReg x b

/-- `booted` with two general registers set. -/
def booted2 (x : RegNo) (b : Byte) (y : RegNo) (c : Byte) : State := (booted.setReg x b).setReg y c

/-- The next step answers a next state, and that state has the property. -/
def stepHas (s : State) (p : State → Bool) : Bool :=
  match step s with
  | .next t => p t
  | _ => false

/-- One cycle of the word `w` from `s`, and a property of the state after. -/
def runs (w : Nat) (s : State) (p : State → Bool) : Bool := stepHas (s.withFetchWord 16 w) p

/-- `s` with the input signals of its next cycle. -/
def withInputs (s : State) (i : Inputs) : State := { s with env := { s.env with inputs := i } }

/-- Only key `k` is down. -/
def onlyKey (k : Fin 16) : Inputs := ⟨0, (Vector.replicate 16 false).set k true, none⟩

/-- `s` with `I` set and one byte of memory written there. -/
def at300 (s : State) (bytes : List Byte) : State := { s with index := 0x300, mem := s.mem.writeBytes 0x300 bytes }

/-! ### Control transfer (part 2.2) -/

/-- 95_test_vectors.md 2.2 vector 9. -/
theorem test_ret :
    runs 0x00EE { booted with pc := 0x300, spFree := 15, stack := booted.stack.set 15 0x206 } (fun t =>
      t.pc == 0x206 && t.sp == 15 && t.stack[15] == 0x206) = true := by decide

/-- 95_test_vectors.md 2.2 vector 10. -/
theorem test_ret_empty :
    runs 0x00EE booted (fun t =>
      t.pc == 0x202 && t.halt && t.fault == some ⟨.stackUnderflow, 0x200, some 0x00EE⟩ && t.faultCode == 6) = true := by decide

/-- 95_test_vectors.md 2.2 vector 1. -/
theorem test_jp : runs 0x1234 booted (fun t => t.pc == 0x234) = true := by decide

/-- 95_test_vectors.md 2.2 vector 3. -/
theorem test_jp_odd : runs 0x1201 booted (fun t => t.pc == 0x201 && !t.halt) = true := by decide

/-- 95_test_vectors.md 2.2 vector 8. -/
theorem test_call :
    runs 0x2ABC { booted with pc := 0xFFE } (fun t =>
      t.stack[15] == 0x1000 && t.sp == 14 && t.pc == 0xABC) = true := by decide

/-- 95_test_vectors.md 2.2 vector 11. -/
theorem test_call_full :
    runs 0x2300 { booted with spFree := 0 } (fun t =>
      t.pc == 0x202 && t.sp == -1 && t.stack == booted.stack && t.faultCode == 5) = true := by decide

/-- 95_test_vectors.md 2.2 vector 12. -/
theorem test_se_imm_equal : runs 0x332A (booted1 3 0x2A) (fun t => t.pc == 0x204) = true := by decide

/-- 95_test_vectors.md 2.2 vector 13. -/
theorem test_se_imm_differs : runs 0x332A (booted1 3 0x2B) (fun t => t.pc == 0x202) = true := by decide

/-- 95_test_vectors.md 2.2 vector 14. -/
theorem test_sne_imm_equal : runs 0x432A (booted1 3 0x2A) (fun t => t.pc == 0x202) = true := by decide

/-- 95_test_vectors.md 2.2 vector 15. -/
theorem test_sne_imm_differs : runs 0x432A (booted1 3 0) (fun t => t.pc == 0x204) = true := by decide

/-- 95_test_vectors.md 2.2 vector 16. -/
theorem test_se_reg_equal : runs 0x5120 (booted2 1 7 2 7) (fun t => t.pc == 0x204) = true := by decide

/-- 95_test_vectors.md 2.2 vector 17. -/
theorem test_se_reg_differs : runs 0x5120 (booted2 1 7 2 8) (fun t => t.pc == 0x202) = true := by decide

/-- 95_test_vectors.md 2.2 vector 19. -/
theorem test_sne_reg_differs : runs 0x9120 (booted2 1 7 2 8) (fun t => t.pc == 0x204) = true := by decide

/-- 95_test_vectors.md 2.2 vector 20. -/
theorem test_sne_reg_same : runs 0x9440 (booted1 4 9) (fun t => t.pc == 0x202) = true := by decide

/-- 95_test_vectors.md 2.2 vector 21. -/
theorem test_jp_v0 : runs 0xB300 (booted2 0 4 3 0x10) (fun t => t.pc == 0x304) = true := by decide

/-- 95_test_vectors.md 2.2 vector 22. -/
theorem test_jp_weird :
    runs 0xB300 { booted2 0 4 3 0x10 with quirk := ⟨false, true, false, false⟩ } (fun t =>
      t.pc == 0x310) = true := by decide

/-! ### Load, ALU, random (part 2.3) -/

/-- 95_test_vectors.md 2.3 vector 2. -/
theorem test_ld_imm_vf : runs 0x6FAB booted (fun t => t.reg 0xF == 0xAB && t.pc == 0x202) = true := by decide

/-- 95_test_vectors.md 2.3 vector 4. -/
theorem test_add_imm_wraps :
    runs 0x7001 (booted1 0 0xFF) (fun t =>
      t.reg 0 == 0 && t.reg 0xF == 0) = true := by decide

/-- 95_test_vectors.md 2.3 vector 6. -/
theorem test_move : runs 0x8120 (booted1 2 0x7E) (fun t => t.reg 1 == 0x7E && t.reg 2 == 0x7E) = true := by decide

/-- 95_test_vectors.md 2.3 vector 7. -/
theorem test_or_keeps_vf :
    runs 0x8121 ((booted2 1 0xF0 2 0x0F).setReg 0xF 1) (fun t =>
      t.reg 1 == 0xFF && t.reg 0xF == 1) = true := by decide

/-- 95_test_vectors.md 2.3 vector 8. -/
theorem test_and_keeps_vf :
    runs 0x8122 ((booted2 1 0xF3 2 0x3F).setReg 0xF 1) (fun t =>
      t.reg 1 == 0x33 && t.reg 0xF == 1) = true := by decide

/-- 95_test_vectors.md 2.3 vector 9. -/
theorem test_xor_keeps_vf :
    runs 0x8123 ((booted2 1 0xFF 2 0x0F).setReg 0xF 1) (fun t =>
      t.reg 1 == 0xF0 && t.reg 0xF == 1) = true := by decide

/-- 95_test_vectors.md 2.3 vector 12. -/
theorem test_add_carries :
    runs 0x8124 (booted2 1 0xFF 2 1) (fun t =>
      t.reg 1 == 0 && t.reg 0xF == 1) = true := by decide

/-- 95_test_vectors.md 2.3 vector 16, decision D4. -/
theorem test_add_into_vf :
    runs 0x8F14 (booted2 0xF 0x10 1 0xF8) (fun t =>
      t.reg 0xF == 0x08 && t.reg 1 == 0xF8) = true := by decide

/-- 95_test_vectors.md 2.3 vector 19. -/
theorem test_sub_equal :
    runs 0x8125 ((booted2 1 5 2 5).setReg 0xF 1) (fun t =>
      t.reg 1 == 0 && t.reg 0xF == 0) = true := by decide

/-- 95_test_vectors.md 2.3 vector 25, decision D4. -/
theorem test_sub_vf_operand :
    runs 0x82F5 (booted2 2 0 0xF 1) (fun t =>
      t.reg 2 == 0xFF && t.reg 0xF == 0) = true := by decide

/-- 95_test_vectors.md 2.3 vector 26. -/
theorem test_subn : runs 0x8127 (booted2 1 5 2 6) (fun t => t.reg 1 == 1 && t.reg 0xF == 1) = true := by decide

/-- 95_test_vectors.md 2.3 vector 27. -/
theorem test_subn_below :
    runs 0x8127 (booted2 1 6 2 5) (fun t =>
      t.reg 1 == 0xFF && t.reg 0xF == 0) = true := by decide

/-- 95_test_vectors.md 2.3 vector 30. -/
theorem test_shr :
    runs 0x8126 (booted2 1 5 2 0xFE) (fun t =>
      t.reg 1 == 2 && t.reg 0xF == 1 && t.reg 2 == 0xFE) = true := by decide

/-- 95_test_vectors.md 2.3 vector 31. -/
theorem test_shr_vy :
    runs 0x8126 { booted2 1 5 2 0xFE with quirk := ⟨true, false, false, false⟩ } (fun t =>
      t.reg 1 == 0x7F && t.reg 0xF == 0 && t.reg 2 == 0xFE) = true := by decide

/-- 95_test_vectors.md 2.3 vector 32. -/
theorem test_shl : runs 0x812E (booted2 1 0x81 2 0x40) (fun t => t.reg 1 == 2 && t.reg 0xF == 1) = true := by decide

/-- 95_test_vectors.md 2.3 vector 33. -/
theorem test_shl_vy :
    runs 0x812E { booted2 1 0x81 2 0x40 with quirk := ⟨true, false, false, false⟩ } (fun t =>
      t.reg 1 == 0x80 && t.reg 0xF == 0 && t.reg 2 == 0x40) = true := by decide

/-- 95_test_vectors.md 2.3 vector 42. -/
theorem test_rnd_masked :
    runs 0xC30F (withInputs booted ⟨0xA7, Vector.replicate 16 false, none⟩) (fun t =>
      t.reg 3 == 0x07) = true := by decide

/-! ### Index and memory (part 2.4) -/

/-- 95_test_vectors.md 2.4 vector 2. -/
theorem test_ld_i : runs 0xAFFF { booted with index := 0xFFFF } (fun t => t.index == 0xFFF) = true := by decide

/-- 95_test_vectors.md 2.4 vector 10. -/
theorem test_add_i_overflow :
    runs 0xFF1E { booted1 0xF 0x20 with index := 0xFF0, quirk := ⟨false, false, true, false⟩ } (fun t =>
      t.index == 0x1010 && t.reg 0xF == 1) = true := by decide

/-- 95_test_vectors.md 2.4 vector 8, decision D22. -/
theorem test_add_i_wraps :
    runs 0xF21E { booted2 2 1 0xF 7 with index := 0xFFFF, quirk := ⟨false, false, true, false⟩ } (fun t =>
      t.index == 0 && t.reg 0xF == 0) = true := by decide

/-- 95_test_vectors.md 2.4 vector 14. -/
theorem test_glyph : runs 0xF429 (booted1 4 0x0F) (fun t => t.index == 0x9B) = true := by decide

/-- 95_test_vectors.md 2.4 vector 15. -/
theorem test_glyph_fault :
    runs 0xF429 { booted1 4 0x10 with index := 0x123 } (fun t =>
      t.index == 0x123 && t.pc == 0x202 && t.fault == some ⟨.outOfRangeKeyReference 0x10, 0x200, some 0xF429⟩) = true := by decide

/-- 95_test_vectors.md part 1, T10. -/
theorem test_digits :
    runs 0xF033 { booted1 0 156 with index := 0x300 } (fun t =>
      t.mem.read 0x300 == 1 && t.mem.read 0x301 == 5 && t.mem.read 0x302 == 6) = true := by decide

/-- 95_test_vectors.md 2.4, decision D3, rule R173. -/
theorem test_digits_font :
    runs 0xF033 { booted1 0 156 with index := 0x04E } (fun t =>
      t.mem == (booted.withFetchWord 16 0xF033).mem && t.faultCode == 7) = true := by decide

/-- 42_index_memory.md R174, by hand. -/
theorem test_store :
    runs 0xF255 { (booted2 0 1 1 2).setReg 2 3 with index := 0x300, quirk := ⟨false, false, false, true⟩ } (fun t =>
      t.mem.read 0x300 == 1 && t.mem.read 0x302 == 3 && t.mem.read 0x303 == 0 && t.index == 0x303) = true := by decide

/-- 42_index_memory.md R174, by hand. -/
theorem test_store_top :
    runs 0xF155 { booted with index := 0xFFF } (fun t =>
      t.fault == some ⟨.addressOutOfRange 0xFFF 2, 0x200, some 0xF155⟩ && t.faultCode == 4) = true := by decide

/-- 42_index_memory.md R175, by hand. -/
theorem test_load :
    runs 0xF165 (at300 booted [7, 8, 9]) (fun t =>
      t.reg 0 == 7 && t.reg 1 == 8 && t.reg 2 == 0 && t.index == 0x300) = true := by decide

/-- 95_test_vectors.md 2.4 vector 42. -/
theorem test_load_top :
    runs 0xF265 { booted with index := 0xFFFF } (fun t =>
      t.fault == some ⟨.addressOutOfRange 0xFFFF 3, 0x200, some 0xF265⟩) = true := by decide

/-! ### Display (part 2.5) -/

/-- 95_test_vectors.md 2.5 vector 1. -/
theorem test_clear :
    runs 0x00E0 { booted1 0xF 1 with pix := (booted.pix.put 0 0 true).put 63 31 true } (fun t =>
      !t.pix.get 0 0 && !t.pix.get 63 31 && t.reg 0xF == 1) = true := by decide

/-- 95_test_vectors.md 2.5 vector 2. -/
theorem test_draw_clips :
    runs 0xD011 (at300 (booted2 0 60 1 0) [0xFF]) (fun t =>
      t.pix.get 60 0 && t.pix.get 63 0 && !t.pix.get 59 0 && !t.pix.get 0 0 && t.reg 0xF == 0) = true := by decide

/-- 95_test_vectors.md 2.5 vector 8. -/
theorem test_draw_collides :
    runs 0xD011 { at300 booted [0xC0] with pix := booted.pix.put 1 0 true } (fun t =>
      t.pix.get 0 0 && !t.pix.get 1 0 && t.reg 0xF == 1) = true := by decide

/-! ### Keypad and timers (part 2.6) -/

/-- 95_test_vectors.md 2.6 vector 1. -/
theorem test_skp_down :
    runs 0xE59E (withInputs (booted1 5 3) (onlyKey 3)) (fun t =>
      t.pc == 0x204) = true := by decide

/-- 95_test_vectors.md 2.6 vector 5. -/
theorem test_skp_fault :
    runs 0xE59E (booted1 5 0x10) (fun t =>
      t.pc == 0x202 && t.fault == some ⟨.outOfRangeKeyReference 0x10, 0x200, some 0xE59E⟩) = true := by decide

/-- 95_test_vectors.md 2.6 vector 3. -/
theorem test_sknp_down :
    runs 0xE5A1 (withInputs (booted1 5 3) (onlyKey 3)) (fun t =>
      t.pc == 0x202) = true := by decide

/-- 95_test_vectors.md 2.6 vector 4. -/
theorem test_sknp_up : runs 0xE5A1 (booted1 5 3) (fun t => t.pc == 0x204) = true := by decide

/-- 95_test_vectors.md 2.6 vector 7. -/
theorem test_key_wait :
    runs 0xF50A (booted1 5 9) (fun t =>
      t.pc == 0x200 && t.reg 5 == 9 && !t.halt) = true := by decide

/-- 95_test_vectors.md 2.6 vector 9. -/
theorem test_key_zero :
    runs 0xFF0A (withInputs (booted1 0xF 9) ⟨0, Vector.replicate 16 false, some 0⟩) (fun t =>
      t.reg 0xF == 0 && t.pc == 0x202) = true := by decide

/-- 95_test_vectors.md 2.6 vector 10. -/
theorem test_ld_dt :
    runs 0xF307 { booted with dt := 0x2A } (fun t =>
      t.reg 3 == 0x2A && t.dt == 0x2A) = true := by decide

/-- 95_test_vectors.md 2.6 vector 11. -/
theorem test_set_dt : runs 0xF315 (booted1 3 0x3C) (fun t => t.dt == 0x3C && t.st == 0) = true := by decide

/-- 95_test_vectors.md 2.6 vector 13. -/
theorem test_set_st : runs 0xF318 (booted1 3 5) (fun t => t.st == 5 && t.tone) = true := by decide

/-- 95_test_vectors.md 2.6 vector 14. -/
theorem test_clear_st :
    runs 0xF318 { booted1 3 0 with st := 9, tone := true } (fun t =>
      t.st == 0 && !t.tone) = true := by decide

/-! ### The cycle, the timers, the host (parts 2.6 and 2.7) -/

/-- `booted` with one event scheduled. -/
def scheduled (e : Event) (s : State) : State := { s with env := { s.env with schedule := [e] } }

/-- The next step is the stop of a halted machine. -/
def stopsHalted (s : State) : Bool :=
  match step s with
  | .fault .halted => true
  | _ => false

/-- 95_test_vectors.md 2.7 vector 6. -/
theorem test_invalid_word : runs 0x8AB8 { booted with tone := true } (fun t => t.pc == 0x202 && t.tone &&
    t.fault == some ⟨.invalidInstruction, 0x200, some 0x8AB8⟩ && t.faultCode == 1) = true := by decide

/-- 95_test_vectors.md 2.7 vector 5. -/
theorem test_fetch_fault : stepHas (scheduled (.cycle quietInputs) { booted with pc := 0x1000 }) (fun t =>
    t.pc == 0x1000 && t.fault == some ⟨.addressOutOfRange 0x1000 2, 0x1000, none⟩) = true := by decide

/-- 95_test_vectors.md 2.7 vector 7. -/
theorem test_halted : stopsHalted (scheduled (.cycle quietInputs) { booted with halt := true }) = true ∧
    stopsHalted (scheduled .tick { booted with halt := true }) = true := by decide

/-- 95_test_vectors.md 2.6 vector 15. -/
theorem test_tick : stepHas (scheduled .tick { booted with st := 1, tone := true }) (fun t =>
    t.st == 0 && t.dt == 0 && t.tone) = true := by decide

/-- 95_test_vectors.md 2.7 vector 1. -/
theorem test_run_without_load : stepHas State.reset (fun t =>
    t.pc == 2 && t.fault == some ⟨.invalidInstruction, 0, some 0⟩) = true := by decide

/-- 95_test_vectors.md part 1, T12: the first of the two cycles after the load. -/
theorem test_load_and_first_cycle :
    (match step (scheduled (.load (some [0x60, 0x05, 0x70, 0x03])) State.reset) with
      | .next t => stepHas (scheduled (.cycle quietInputs) t) (fun u => u.reg 0 == 5 && u.pc == 0x202)
      | _ => false) = true := by decide

/-- Load, tick, load: the second load is refused (R264, U16). -/
theorem test_second_load_refused :
    (match step (scheduled (.load (some [])) State.reset) with
      | .next t =>
        (match step (scheduled .tick t) with
          | .next u => (match step (scheduled (.load (some [])) u) with
            | .refused .loadNotAllowed => true
            | _ => false)
          | _ => false)
      | _ => false) = true := by decide

/-- 95_test_vectors.md 2.7 vector 8. -/
theorem test_reset_after_fault : stepHas (scheduled (.reset noQuirk) { booted1 3 7 with halt := true }) (fun t =>
    !t.halt && t.fault == none && t.pc == 0 && t.reg 3 == 0 && t.quirk == noQuirk) = true := by decide

/-! ## A witness for the hypotheses of every statement that has some -/

theorem witness_DecodedWordIsItsEncoding : ∃ w i, decode w = .ok i := ⟨0x8AB4, .op8XY4 0xA 0xB, by decide⟩

theorem witness_DecoderAcceptsExactlyValid : ∃ w : Word, validWord w = false := ⟨0x5121, by decide⟩

/-- `booted` with the word of a jump to 0x234 at PC and a cycle next. -/
def atJump : State := booted.withFetchWord 16 0x1234

theorem witness_StepRunsDecodedInstruction : ∃ (s : State) (signals : Inputs) (i : Instr),
    s.halt = false ∧ s.nextEvent = .cycle signals ∧ s.pc.toNat ≤ 0xFFE ∧
    decode (wordOfBytes (s.mem.read s.pc.toNat) (s.mem.read (s.pc.toNat + 1))) = .ok i :=
  ⟨atJump, quietInputs, .op1NNN 0x234, by decide⟩

/-- The last address a fetch may start at. -/
theorem witness_StepRunsDecodedInstruction_top : ∃ (s : State) (signals : Inputs) (i : Instr),
    s.halt = false ∧ s.nextEvent = .cycle signals ∧ s.pc.toNat = 0xFFE ∧
    decode (wordOfBytes (s.mem.read s.pc.toNat) (s.mem.read (s.pc.toNat + 1))) = .ok i :=
  ⟨({ booted with pc := 0xFFE } : State).withFetchWord 16 0x1234, quietInputs, .op1NNN 0x234, by decide⟩

theorem witness_FetchIsBigEndian : ∃ a : Nat, a ≤ 0xFFE := ⟨0xFFE, by decide⟩

theorem witness_InvalidWordHalts : ∃ (s : State) (signals : Inputs),
    s.halt = false ∧ s.nextEvent = .cycle signals ∧ s.pc.toNat ≤ 0xFFE ∧
    validWord (wordOfBytes (s.mem.read s.pc.toNat) (s.mem.read (s.pc.toNat + 1))) = false :=
  ⟨({ booted with pc := 0xFFE } : State).withFetchWord 16 0x8AB8, quietInputs, by decide⟩

theorem witness_FetchAboveMemoryHalts : ∃ (s : State) (signals : Inputs),
    s.halt = false ∧ s.nextEvent = .cycle signals ∧ 0xFFE < s.pc.toNat :=
  ⟨scheduled (.cycle quietInputs) { booted with pc := 0xFFF }, quietInputs, by decide⟩

theorem witness_HaltedMachineHasNoStep_cycle : ∃ s : State, s.halt = true ∧ s.nextEvent = .cycle quietInputs :=
  ⟨scheduled (.cycle quietInputs) { booted with halt := true }, by decide⟩

theorem witness_HaltedMachineHasNoStep_tick : ∃ s : State, s.halt = true ∧ s.nextEvent = .tick :=
  ⟨scheduled .tick { booted with halt := true }, by decide⟩

/-- A halted state: `booted` after a stack underflow. -/
def underflowed : State := booted.raise .stackUnderflow 0x200 (some 0x00EE)

/-- `booted` meets the invariant. -/
theorem booted_inv : Inv booted where
  memWf := ⟨List.Pairwise.nil, by intro c hc; cases hc⟩
  fontIntact := by intro c hc; cases hc
  pcRange := by decide
  returnRange := by decide
  haltFault := by decide
  loadRunning := by decide

/-- `underflowed` meets the invariant, whatever is scheduled. -/
theorem underflowed_inv (e : Event) : Inv (scheduled e underflowed) where
  memWf := ⟨List.Pairwise.nil, by intro c hc; cases hc⟩
  fontIntact := by intro c hc; cases hc
  pcRange := show (0x200#16).toNat ≤ 0x10FE by decide
  returnRange := show ∀ k : Fin 16, ((Vector.replicate 16 (0#16))[k]).toNat ≤ 0x1000 by decide
  haltFault := rfl
  loadRunning := by intro h; cases h

theorem witness_OnlyResetLeavesHalt_exec : ∃ (i : Instr) (s t : State), exec i s = .next t ∧ s.halt = true ∧
    s.fault.isSome = true :=
  ⟨.op6XNN 0 5, underflowed, _, rfl, rfl, rfl⟩

theorem witness_OnlyResetLeavesHalt_cycle : ∃ (s : State) (signals : Inputs), s.halt = true ∧
    s.nextEvent = .cycle signals :=
  ⟨scheduled (.cycle quietInputs) underflowed, quietInputs, by decide⟩

theorem witness_OnlyResetLeavesHalt_step : ∃ s t : State, Inv s ∧ s.halt = true ∧ step s = .next t :=
  ⟨scheduled (.reset noQuirk) underflowed, _, underflowed_inv _, rfl, rfl⟩

theorem witness_ToneFollowsSoundTimer_cycle : ∃ (s t : State) (signals : Inputs),
    s.halt = false ∧ s.nextEvent = .cycle signals ∧ step s = .next t :=
  ⟨atJump, _, quietInputs, rfl, rfl, rfl⟩

theorem witness_ToneFollowsSoundTimer_tick : ∃ s t : State, s.nextEvent = .tick ∧ step s = .next t :=
  ⟨scheduled .tick { booted with dt := 1 }, _, rfl, rfl⟩

theorem witness_TickCountsDown_running : ∃ s : State, s.nextEvent = .tick ∧ s.halt = false :=
  ⟨scheduled .tick booted, by decide⟩

theorem witness_TickCountsDown_halted : ∃ s : State, s.nextEvent = .tick ∧ s.halt = true :=
  ⟨scheduled .tick underflowed, by decide⟩

theorem witness_ResetGivesTheResetState : ∃ (s : State) (q : Quirk), s.nextEvent = .reset q :=
  ⟨scheduled (.reset noQuirk) underflowed, noQuirk, by decide⟩

theorem reset_mem_wf : State.reset.mem.wf := ⟨List.Pairwise.nil, by intro c hc; cases hc⟩

/-- The longest image that fits. -/
theorem witness_LoadPlacesTheImage : ∃ (s : State) (image : List Byte), s.mem.wf ∧ s.env.loadable = true ∧
    s.nextEvent = .load (some image) ∧ image.length ≤ 3584 :=
  ⟨scheduled (.load (some (List.replicate 3584 0x12))) State.reset, List.replicate 3584 0x12,
    reset_mem_wf, rfl, rfl, by rw [List.length_replicate]⟩

theorem witness_FailedLoadHalts_none : ∃ (s : State) (image : Option (List Byte)), s.env.loadable = true ∧
    s.nextEvent = .load image ∧ ∀ bytes, image = some bytes → 3584 < bytes.length :=
  ⟨scheduled (.load none) State.reset, none, rfl, rfl, by intro bytes h; cases h⟩

/-- The shortest image that does not fit. -/
theorem witness_FailedLoadHalts_long : ∃ (s : State) (image : Option (List Byte)), s.env.loadable = true ∧
    s.nextEvent = .load image ∧ ∀ bytes, image = some bytes → 3584 < bytes.length :=
  ⟨scheduled (.load (some (List.replicate 3585 0x12))) State.reset, some (List.replicate 3585 0x12), rfl, rfl,
    by intro bytes h; cases h; rw [List.length_replicate]; decide⟩

theorem witness_LateLoadIsRefused : ∃ (s : State) (image : Option (List Byte)), s.env.loadable = false ∧
    s.nextEvent = .load image :=
  ⟨scheduled (.load none) booted, none, by decide⟩

theorem witness_LateLoadIsRefused_step : ∃ s t : State, step s = .next t ∧ (∀ q, s.nextEvent ≠ .reset q) ∧
    s.nextEvent ≠ .tick :=
  ⟨atJump, _, rfl, fun q h => (by cases h), fun h => (by cases h)⟩

theorem witness_LateLoadIsRefused_tick : ∃ s t : State, step s = .next t ∧ s.nextEvent = .tick ∧
    s.env.loadable = false :=
  ⟨scheduled .tick booted, _, rfl, rfl, rfl⟩

theorem witness_LateLoadIsRefused_tickBeforeLoad : ∃ s t : State, step s = .next t ∧ s.nextEvent = .tick ∧
    s.env.loadable = true :=
  ⟨scheduled .tick State.reset, _, rfl, rfl, rfl⟩

theorem witness_LateLoadIsRefused_reset : ∃ (s t : State) (q : Quirk), step s = .next t ∧
    s.nextEvent = .reset q ∧ s.env.loadable = false :=
  ⟨scheduled (.reset noQuirk) booted, _, noQuirk, rfl, rfl, rfl⟩

theorem witness_StepTakesOneEvent : ∃ (s t : State) (e : Event) (es : List Event), s.env.schedule = e :: es ∧
    step s = .next t :=
  ⟨{ booted with env := ⟨quietInputs, [.tick, .reset noQuirk], 0, false⟩ }, _, .tick, [.reset noQuirk], rfl, rfl⟩

theorem witness_StepTakesOneEvent_empty : ∃ s t : State, s.env.schedule = [] ∧ step s = .next t :=
  ⟨booted, _, rfl, rfl⟩

theorem witness_SelfJumpChangesNothing : ∃ (s : State) (signals : Inputs) (nnn : Addr12),
    s.halt = false ∧ s.nextEvent = .cycle signals ∧ s.pc = nnn.setWidth 16 ∧ s.pc.toNat ≤ 0xFFE ∧
    wordOfBytes (s.mem.read s.pc.toNat) (s.mem.read (s.pc.toNat + 1)) = encode (.op1NNN nnn) :=
  ⟨booted.withFetchWord 16 0x1200, quietInputs, 0x200, by decide⟩

theorem witness_ReturnPopsTheStack_empty : ∃ s : State, s.sp = 15 := ⟨booted, by decide⟩

/-- A full stack, the other end of the range. -/
theorem witness_ReturnPopsTheStack_full : ∃ s : State, s.spFree.val < 16 ∧ s.spFree.val = 0 :=
  ⟨{ booted with spFree := 0 }, by decide⟩

theorem witness_CallPushesTheReturnAddress_full : ∃ s : State, s.sp = -1 := ⟨{ booted with spFree := 0 }, by decide⟩

/-- The last entry that can be pushed. -/
theorem witness_CallPushesTheReturnAddress_last : ∃ s : State, s.sp ≠ -1 ∧ s.sp = 0 :=
  ⟨{ booted with spFree := 1 }, by decide⟩

theorem witness_ReturnUndoesCall : ∃ (nnn : Addr12) (s t : State), exec (.op2NNN nnn) s = .next t ∧
    s.halt = false ∧ t.halt = false :=
  ⟨0x300, booted, _, rfl, rfl, rfl⟩

theorem witness_ShiftsMoveOneBit : ∃ (x y : RegNo) (s : State) (t : Nat),
    t = (if s.quirk.shiftUseVY then (s.reg y).toNat else (s.reg x).toNat) ∧ s.quirk.shiftUseVY = true ∧ t = 0xFE :=
  ⟨1, 2, { booted2 1 5 2 0xFE with quirk := ⟨true, false, false, false⟩ }, 0xFE, by decide⟩

theorem witness_ShiftsMoveOneBit_vx : ∃ (x y : RegNo) (s : State) (t : Nat),
    t = (if s.quirk.shiftUseVY then (s.reg y).toNat else (s.reg x).toNat) ∧ s.quirk.shiftUseVY = false ∧ t = 5 :=
  ⟨1, 2, booted2 1 5 2 0xFE, 5, by decide⟩

theorem witness_RandomIsMasked : ∃ (x : RegNo) (nn : Byte) (s t : State), exec (.opCXNN x nn) s = .next t :=
  ⟨3, 0x0F, booted, _, rfl⟩

theorem witness_IndexAddsRegister_flag : ∃ s : State, s.quirk.addToIndexOverflow = true :=
  ⟨{ booted with quirk := ⟨false, false, true, false⟩ }, by decide⟩

theorem witness_IndexAddsRegister_noFlag : ∃ s : State, s.quirk.addToIndexOverflow = false := ⟨booted, by decide⟩

theorem witness_GlyphAddressOrFault_digit : ∃ (x : RegNo) (s : State), (s.reg x).toNat ≤ 0xF ∧ s.reg x = 0xF :=
  ⟨4, booted1 4 0xF, by decide⟩

theorem witness_GlyphAddressOrFault_fault : ∃ (x : RegNo) (s : State), 0xF < (s.reg x).toNat ∧ s.reg x = 0x10 :=
  ⟨4, booted1 4 0x10, by decide⟩

/-! The four clauses of FX33 at the ends of their ranges of `I`: above memory from 0xFFE, meeting the font table
from 0x04E to 0x09F, and storing below 0x04E, from 0x0A0 and up to 0xFFD. -/

theorem witness_DecimalDigitsStored_range : ∃ s : State, 0xFFF < s.index.toNat + 2 ∧ s.index = 0xFFE :=
  ⟨{ booted with index := 0xFFE }, by decide⟩

theorem witness_DecimalDigitsStored_font : ∃ s u : State, (s.index.toNat ≤ 0x09F ∧ 0x050 ≤ s.index.toNat + 2 ∧
    s.index = 0x04E) ∧ (u.index.toNat ≤ 0x09F ∧ 0x050 ≤ u.index.toNat + 2 ∧ u.index = 0x09F) :=
  ⟨{ booted with index := 0x04E }, { booted with index := 0x09F }, by decide⟩

theorem witness_DecimalDigitsStored_stored : ∃ s u v : State,
    (s.mem.wf ∧ s.index.toNat + 2 ≤ 0xFFF ∧ (0x09F < s.index.toNat ∨ s.index.toNat + 2 < 0x050) ∧
      s.index = 0x04D) ∧
    (u.mem.wf ∧ u.index.toNat + 2 ≤ 0xFFF ∧ (0x09F < u.index.toNat ∨ u.index.toNat + 2 < 0x050) ∧
      u.index = 0x0A0) ∧
    (v.mem.wf ∧ v.index.toNat + 2 ≤ 0xFFF ∧ (0x09F < v.index.toNat ∨ v.index.toNat + 2 < 0x050) ∧
      v.index = 0xFFD) :=
  ⟨{ booted with index := 0x04D }, { booted with index := 0x0A0 }, { booted with index := 0xFFD },
    ⟨booted_inv.memWf, by decide⟩, ⟨booted_inv.memWf, by decide⟩, ⟨booted_inv.memWf, by decide⟩⟩

/-! The clauses of FX55 at X = F: above memory from 0xFF1, meeting the font table from 0x041 to 0x09F, storing
below and above. -/

theorem witness_RegistersStored_range : ∃ (x : RegNo) (s : State), 0xFFF < s.index.toNat + x.toNat ∧
    s.index = 0xFF1 ∧ x = 0xF :=
  ⟨0xF, { booted with index := 0xFF1 }, by decide⟩

theorem witness_RegistersStored_font : ∃ (x : RegNo) (s u : State),
    (s.index.toNat ≤ 0x09F ∧ 0x050 ≤ s.index.toNat + x.toNat ∧ s.index = 0x041 ∧ x = 0xF) ∧
    (u.index.toNat ≤ 0x09F ∧ 0x050 ≤ u.index.toNat + x.toNat ∧ u.index = 0x09F) :=
  ⟨0xF, { booted with index := 0x041 }, { booted with index := 0x09F }, by decide⟩

theorem witness_RegistersStored_stored : ∃ (x : RegNo) (s u v : State),
    (s.mem.wf ∧ s.index.toNat + x.toNat ≤ 0xFFF ∧ (0x09F < s.index.toNat ∨ s.index.toNat + x.toNat < 0x050) ∧
      s.index = 0x040 ∧ x = 0xF) ∧
    (u.mem.wf ∧ u.index.toNat + x.toNat ≤ 0xFFF ∧ (0x09F < u.index.toNat ∨ u.index.toNat + x.toNat < 0x050) ∧
      u.index = 0x0A0) ∧
    (v.mem.wf ∧ v.index.toNat + x.toNat ≤ 0xFFF ∧ (0x09F < v.index.toNat ∨ v.index.toNat + x.toNat < 0x050) ∧
      v.index = 0xFF0) :=
  ⟨0xF, { booted with index := 0x040 }, { booted with index := 0x0A0 }, { booted with index := 0xFF0 },
    ⟨booted_inv.memWf, by decide⟩, ⟨booted_inv.memWf, by decide⟩, ⟨booted_inv.memWf, by decide⟩⟩

theorem witness_RegistersLoaded_range : ∃ (x : RegNo) (s : State), 0xFFF < s.index.toNat + x.toNat ∧
    s.index = 0x1000 ∧ x = 0 :=
  ⟨0, { booted with index := 0x1000 }, by decide⟩

theorem witness_RegistersLoaded_loaded : ∃ (x : RegNo) (s : State), s.index.toNat + x.toNat ≤ 0xFFF ∧
    s.index = 0xFFF ∧ x = 0 :=
  ⟨0, { booted with index := 0xFFF }, by decide⟩

theorem witness_RegistersLoaded_roundTrip : ∃ (x : RegNo) (s t : State), s.mem.wf ∧
    exec (.opFX55 x) s = .next t ∧ s.halt = false ∧ t.halt = false :=
  ⟨0xF, { booted1 3 7 with index := 0x300 }, _, booted_inv.memWf, rfl, rfl, by decide⟩

/-- The bottom right pixel, both ways: lit under a set bit, and not covered. -/
theorem witness_CompositeXorsAndCollides : ∃ (p : Pixels) (x0 y0 x y : Nat), x0 < 64 ∧ y0 < 32 ∧ x < 64 ∧ y < 32 ∧
    spriteCovers (fun j => [(0xC0 : Byte)].getD j 0) 1 x0 y0 x y = true ∧ p.get x y = true ∧
    spriteCovers (fun j => [(0xC0 : Byte)].getD j 0) 1 x0 y0 0 0 = false :=
  ⟨Pixels.clear.put 63 31 true, 63, 31, 63, 31, by decide⟩

theorem witness_DrawXorsTheSprite_fault : ∃ (n : BitVec 4) (s : State), 0 < n.toNat ∧
    0xFFF < s.index.toNat + n.toNat - 1 ∧ s.index = 0xFFF ∧ n = 2 :=
  ⟨2, { booted with index := 0xFFF }, by decide⟩

theorem witness_DrawXorsTheSprite_drawn : ∃ (n : BitVec 4) (s : State), 0 < n.toNat ∧
    (n.toNat = 0 ∨ s.index.toNat + n.toNat - 1 ≤ 0xFFF) ∧ s.index = 0xFFF ∧ n = 1 :=
  ⟨1, { booted with index := 0xFFF }, by decide⟩

theorem witness_DrawXorsTheSprite_empty : ∃ (n : BitVec 4) (s : State),
    (n.toNat = 0 ∨ s.index.toNat + n.toNat - 1 ≤ 0xFFF) ∧ s.index = 0x1234 ∧ n = 0 :=
  ⟨0, { booted with index := 0x1234 }, by decide⟩

theorem witness_DrawTwiceRestoresThePixels : ∃ (x y : RegNo) (n : BitVec 4) (s t u : State), x ≠ 0xF ∧ y ≠ 0xF ∧
    s.halt = false ∧ exec (.opDXYN x y n) s = .next t ∧ t.halt = false ∧ exec (.opDXYN x y n) t = .next u :=
  ⟨0, 1, 1, at300 (booted2 0 60 1 0) [0xFF], _, _, by decide, by decide, rfl, rfl, by decide, rfl⟩

theorem witness_KeySkips_key : ∃ (x : RegNo) (s : State) (k : Fin 16), (s.reg x).toNat = k.val ∧ k = 15 :=
  ⟨5, booted1 5 0xF, 15, by decide⟩

theorem witness_KeySkips_fault : ∃ (x : RegNo) (s : State), 0xF < (s.reg x).toNat ∧ s.reg x = 0x10 :=
  ⟨5, booted1 5 0x10, by decide⟩

theorem witness_ReportedKeyIsDown : ∃ (i j u : Inputs) (k : Fin 16), i.keyLatest = some k ∧ j.keyDown[k] = true ∧
    u.keyLatest ≠ some k ∧ u.keyDown[k] = false :=
  ⟨⟨0, Vector.replicate 16 false, some 15⟩, onlyKey 15, quietInputs, 15, by decide⟩

theorem witness_KeyWaitPolls : ∃ s u : State, s.env.inputs.keyLatest = some 0 ∧ u.env.inputs.keyLatest = none :=
  ⟨withInputs booted ⟨0, Vector.replicate 16 false, some 0⟩, booted, by decide⟩

theorem witness_TimerAccess : ∃ s : State, s.halt = false := ⟨booted, by decide⟩

theorem witness_EveryStepKeepsTheInvariant : ∃ s t : State, Inv s ∧ step s = .next t :=
  ⟨booted, _, booted_inv, rfl⟩

theorem witness_FontTableNeverChanges : ∃ s t : State, Inv s ∧ step s = .next t :=
  ⟨scheduled (.reset noQuirk) underflowed, _, underflowed_inv _, rfl⟩

theorem witness_QuirkChangesOnlyAtReset : ∃ s t : State, step s = .next t ∧ ∀ q, s.nextEvent ≠ .reset q :=
  ⟨atJump, _, rfl, fun q h => (by cases h)⟩

theorem witness_OnlyStoresWriteMemory : ∃ (i : Instr) (s t : State), exec i s = .next t ∧ (∀ x, i ≠ .opFX33 x) ∧
    ∀ x, i ≠ .opFX55 x :=
  ⟨.op6XNN 0 5, booted, _, rfl, fun x h => (by cases h), fun x h => (by cases h)⟩

theorem witness_OnlyDisplayWritesPixels : ∃ (i : Instr) (s t : State), exec i s = .next t ∧ i ≠ .op00E0 ∧
    ∀ x y n, i ≠ .opDXYN x y n :=
  ⟨.op6XNN 0 5, booted, _, rfl, fun h => (by cases h), fun x y n h => (by cases h)⟩

theorem witness_OnlyCallAndReturnUseTheStack : ∃ (i : Instr) (s t : State), exec i s = .next t ∧ i ≠ .op00EE ∧
    ∀ nnn, i ≠ .op2NNN nnn :=
  ⟨.op6XNN 0 5, booted, _, rfl, fun h => (by cases h), fun x h => (by cases h)⟩

/-- The statement's premise on the instruction holds of 6XNN with X = 0, of FX1E without the quirk and of 1NNN. -/
theorem witness_OnlyFlagWritersTouchVF : ∃ (s t u v : State), exec (.op6XNN 0 5) s = .next t ∧ (0 : RegNo) ≠ 0xF ∧
    exec (.opFX1E 2) s = .next u ∧ s.quirk.addToIndexOverflow = false ∧ exec (.op1NNN 0x234) s = .next v :=
  ⟨booted, _, _, _, rfl, by decide, rfl, rfl, rfl⟩

theorem witness_FaultsArePrecise : ∃ (i : Instr) (s t : State), s.halt = false ∧ exec i s = .next t ∧
    t.halt = true :=
  ⟨.op00EE, booted, _, rfl, rfl, rfl⟩

/-! One witness for each instruction that can fault (R228). -/

theorem witness_FaultsAreTheListedOnes_op00EE : ∃ s t : State, s.halt = false ∧ exec (.op00EE) s = .next t ∧
    t.halt = true :=
  ⟨booted, _, rfl, rfl, by decide⟩

theorem witness_FaultsAreTheListedOnes_op2NNN : ∃ s t : State, s.halt = false ∧ exec (.op2NNN 0x300) s = .next t ∧
    t.halt = true :=
  ⟨{ booted with spFree := 0 }, _, rfl, rfl, by decide⟩

theorem witness_FaultsAreTheListedOnes_opEX9E : ∃ s t : State, s.halt = false ∧ exec (.opEX9E 5) s = .next t ∧
    t.halt = true :=
  ⟨booted1 5 0x10, _, rfl, rfl, by decide⟩

theorem witness_FaultsAreTheListedOnes_opEXA1 : ∃ s t : State, s.halt = false ∧ exec (.opEXA1 5) s = .next t ∧
    t.halt = true :=
  ⟨booted1 5 0xFF, _, rfl, rfl, by decide⟩

theorem witness_FaultsAreTheListedOnes_opFX29 : ∃ s t : State, s.halt = false ∧ exec (.opFX29 4) s = .next t ∧
    t.halt = true :=
  ⟨booted1 4 0x10, _, rfl, rfl, by decide⟩

theorem witness_FaultsAreTheListedOnes_opDXYN : ∃ s t : State, s.halt = false ∧ exec (.opDXYN 0 1 2) s = .next t ∧
    t.halt = true :=
  ⟨{ booted with index := 0xFFF }, _, rfl, rfl, by decide⟩

theorem witness_FaultsAreTheListedOnes_opFX65 : ∃ s t : State, s.halt = false ∧ exec (.opFX65 1) s = .next t ∧
    t.halt = true :=
  ⟨{ booted with index := 0xFFF }, _, rfl, rfl, by decide⟩

theorem witness_FaultsAreTheListedOnes_opFX33 : ∃ s t : State, s.halt = false ∧ exec (.opFX33 0) s = .next t ∧
    t.halt = true :=
  ⟨{ booted with index := 0x09F }, _, rfl, rfl, by decide⟩

theorem witness_FaultsAreTheListedOnes_opFX55 : ∃ s t : State, s.halt = false ∧ exec (.opFX55 0) s = .next t ∧
    t.halt = true :=
  ⟨{ booted with index := 0x1000 }, _, rfl, rfl, by decide⟩

end Sys2Proof.Tests
end

/-! PROOFS of 10_state.md: the state after reset. -/

namespace Sys2Proof.Machine

/-! ## The reset state (R37) -/

@[simp] theorem State.reg_reset (r : RegNo) : State.reset.reg r = 0 :=
  Vector.getElem_replicate r.isLt

theorem State.stack_reset_getElem (k : Fin 16) : State.reset.stack[k] = 0 :=
  Vector.getElem_replicate k.isLt

@[simp] theorem State.pix_reset : State.reset.pix = Pixels.clear := rfl

@[simp] theorem State.mem_reset : State.reset.mem = [] := rfl

/-- QUIRK and the surroundings are the only parts of the reset state that R37 leaves to the caller. -/
theorem isResetState_reset_with (q : Quirk) (e : Env) :
    IsResetState q { State.reset with quirk := q, env := e } := by
  refine ⟨State.reg_reset, rfl, rfl, rfl, State.stack_reset_getElem, rfl, rfl, fun x y => ?pixels,
    fun k => ?font, fun a ha => ?plain, rfl, rfl, rfl, rfl⟩
  case pixels => rw [State.pix_reset, Pixels.get_clear]
  case font => rw [State.mem_reset, Memory.read_nil, Memory.initial_font]
  case plain => rw [State.mem_reset, Memory.read_nil, Memory.initial_plain ha]

theorem isResetState_hostReset (s : State) (q : Quirk) : IsResetState q (s.hostReset q) :=
  isResetState_reset_with q _

/-- Settles O16: the initial state and every host reset are the reset state up to QUIRK and the surroundings. -/
theorem resetGivesTheResetState : Obligations.ResetGivesTheResetState := by
  unfold Obligations.ResetGivesTheResetState
  constructor
  · exact isResetState_reset_with Config.quirkIn State.reset.env
  · intro s q he
    exact ⟨s.dropEvent.hostReset q, step_reset he, isResetState_hostReset _ q⟩

end Sys2Proof.Machine

/-! PROOFS of 40_control_flow.md: jumps and skips, which write `PC` and nothing else. -/

namespace Sys2Proof.Machine

/-! ## Writing `PC` alone -/

/-- The frame of every control transfer that leaves the stack alone (R124, R126 to R130). -/
theorem unchanged_setPc (s : State) (p : Word) : Unchanged [.pc] s { s with pc := p } := by
  intro part hpart
  cases part
  case pc => exact absurd (List.mem_singleton_self Part.pc) hpart
  case regs => exact State.reg_congr rfl
  case pixels => exact fun _ _ => rfl
  case memory => exact fun _ => rfl
  case stack | fault => exact ⟨rfl, rfl⟩
  case index | delay | sound | quirk | tone | env => exact rfl

/-- A meaning that answers `skipIf` skips exactly when the condition its Boolean tests holds (R122). -/
theorem skipsIff_of_exec_eq_skipIf {i : Instr} {s : State} {b : Bool} {c : Prop} [Decidable c]
    (hexec : exec i s = .next (s.skipIf b)) (hb : b = true ↔ c) : SkipsIff i c s := by
  refine ⟨s.skipIf b, hexec, ?_, unchanged_setPc s _⟩
  simp only [State.pc_skipIf, hb]

/-! ## Jump targets -/

@[simp] theorem toNat_zextAddr (nnn : Addr12) : (zextAddr nnn).toNat = nnn.toNat :=
  BitVec.toNat_setWidth_of_le (by decide)

@[simp] theorem toNat_zextByte (b : Byte) : (zextByte b).toNat = b.toNat :=
  BitVec.toNat_setWidth_of_le (by decide)

/-- At most 0xFFF + 0xFF, so the 16-bit sum is exact (R130). -/
theorem toNat_zextAddr_add_zextByte (nnn : Addr12) (b : Byte) :
    (zextAddr nnn + zextByte b).toNat = nnn.toNat + b.toNat := by
  have hsum : (zextAddr nnn).toNat + (zextByte b).toNat < 2 ^ 16 := by
    rw [toNat_zextAddr, toNat_zextByte]
    have hnnn := nnn.isLt
    have hb := b.isLt
    omega
  rw [BitVec.toNat_add_of_lt hsum, toNat_zextAddr, toNat_zextByte]

theorem State.toNat_jumpOffset (s : State) (nnn : Addr12) :
    (s.jumpOffset nnn).toNat =
      if s.quirk.jumpWeird then (s.reg (nnn.extractLsb' 8 4)).toNat else (s.reg 0).toNat :=
  apply_ite BitVec.toNat _ _ _

/-! ## The obligations -/

/-- Settles O23: the 12-bit target is widened without change, and only `PC` is written. -/
theorem jumpSetsPc : Obligations.JumpSetsPc := by
  unfold Obligations.JumpSetsPc
  intro nnn s
  exact ⟨rfl, { s with pc := zextAddr nnn }, rfl, toNat_zextAddr nnn, unchanged_setPc s _⟩

/-- Settles O26: both meanings are a `skipIf`, on `==` and on `!=` with the immediate. -/
theorem immediateSkips : Obligations.ImmediateSkips := by
  unfold Obligations.ImmediateSkips
  intro x nn s
  exact ⟨rfl, rfl, skipsIff_of_exec_eq_skipIf (b := s.reg x == nn) rfl beq_iff_eq,
    skipsIff_of_exec_eq_skipIf (b := s.reg x != nn) rfl bne_iff_ne⟩

/-- Settles O27: both meanings are a `skipIf`, on `==` and on `!=` between the registers. -/
theorem registerSkips : Obligations.RegisterSkips := by
  unfold Obligations.RegisterSkips
  intro x y s
  exact ⟨rfl, rfl, skipsIff_of_exec_eq_skipIf (b := s.reg x == s.reg y) rfl beq_iff_eq,
    skipsIff_of_exec_eq_skipIf (b := s.reg x != s.reg y) rfl bne_iff_ne⟩

/-- Settles O28: the sum of the address and the selected register fits 16 bits, and only `PC` is written. -/
theorem indexedJumpAddsTheRegister : Obligations.IndexedJumpAddsTheRegister := by
  unfold Obligations.IndexedJumpAddsTheRegister
  intro nnn s
  refine ⟨rfl, { s with pc := zextAddr nnn + zextByte (s.jumpOffset nnn) }, rfl, ?_, unchanged_setPc s _⟩
  rw [← State.toNat_jumpOffset]
  exact toNat_zextAddr_add_zextByte nnn _

end Sys2Proof.Machine

/-! PROOFS of 41_load_alu.md: loads, moves and logic, which write one register and no flag. -/

namespace Sys2Proof.Machine

/-! ## Writing registers alone -/

/-- The frame of every instruction that writes general registers only, flag writers included (R142 to R154). -/
theorem unchanged_setV (s : State) (v : Vector Byte 16) : Unchanged [.regs] s { s with v := v } := by
  intro part hpart
  cases part
  case regs => exact absurd (List.mem_singleton_self Part.regs) hpart
  case pixels => exact fun _ _ => rfl
  case memory => exact fun _ => rfl
  case stack | fault => exact ⟨rfl, rfl⟩
  case index | pc | delay | sound | quirk | tone | env => exact rfl

/-- A meaning that answers `setReg` writes that register and nothing else. -/
theorem writesReg_of_exec_eq_setReg {i : Instr} {s : State} {x : RegNo} {b : Byte}
    (hexec : exec i s = .next (s.setReg x b)) : WritesReg i x b s :=
  ⟨s.setReg x b, hexec, State.reg_setReg_same s x b, fun _ hr => State.reg_setReg_other s b hr, unchanged_setV s _⟩

/-! ## Addition modulo 256 (R140) -/

theorem ofNat_sum_mod_eq_add (a b : Byte) : BitVec.ofNat 8 ((a.toNat + b.toNat) % 256) = a + b :=
  BitVec.eq_of_toNat_eq <| by rw [BitVec.toNat_ofNat, BitVec.toNat_add, Nat.mod_mod]

/-! ## The obligations -/

/-- Settles O29: both meanings are a `setReg`, and the 8-bit sum is the sum modulo 256. -/
theorem immediateLoadAndAdd : Obligations.ImmediateLoadAndAdd := by
  unfold Obligations.ImmediateLoadAndAdd
  intro x nn s
  refine ⟨rfl, rfl, writesReg_of_exec_eq_setReg rfl, ?sum⟩
  case sum =>
    rw [ofNat_sum_mod_eq_add]
    exact writesReg_of_exec_eq_setReg rfl

/-- Settles O30: the four meanings are a `setReg` of VY and of the bitwise OR, AND and XOR of VX and VY. -/
theorem moveAndLogic : Obligations.MoveAndLogic := by
  unfold Obligations.MoveAndLogic
  intro x y s
  exact ⟨rfl, rfl, rfl, rfl, writesReg_of_exec_eq_setReg rfl,
    ⟨s.reg x ||| s.reg y, writesReg_of_exec_eq_setReg rfl, fun _ => BitVec.getLsbD_or⟩,
    ⟨s.reg x &&& s.reg y, writesReg_of_exec_eq_setReg rfl, fun _ => BitVec.getLsbD_and⟩,
    ⟨s.reg x ^^^ s.reg y, writesReg_of_exec_eq_setReg rfl, fun _ => BitVec.getLsbD_xor⟩⟩

end Sys2Proof.Machine

/-! PROOFS of 42_index_memory.md: the instructions that write `I` alone, and the fault of a key reference. -/

namespace Sys2Proof.Machine

/-! ## Frames of the index writes and of a raised fault -/

theorem Part.same_refl (s : State) (part : Part) : Part.same s s part := by
  cases part
  case regs | memory => exact fun _ => rfl
  case pixels => exact fun _ _ => rfl
  case stack | fault => exact ⟨rfl, rfl⟩
  case index | pc | delay | sound | quirk | tone | env => exact rfl

/-- The frame of every instruction that writes `I` only (R170, R172). -/
theorem unchanged_setIndex (s : State) (w : Word) : Unchanged [.index] s { s with index := w } := by
  intro part hpart
  have hsame := Part.same_refl s part
  cases part
  case index => exact absurd (List.mem_singleton_self Part.index) hpart
  all_goals exact hsame

/-- A raise in the execute stage writes HALT and FAULT only (R244). -/
theorem unchanged_raiseIn (s : State) (i : Instr) (k : FaultKind) : Unchanged [.fault] s (s.raiseIn i k) := by
  intro part hpart
  have hsame := Part.same_refl s part
  cases part
  case fault => exact absurd (List.mem_singleton_self Part.fault) hpart
  all_goals exact hsame

/-- A meaning that answers a raised fault does nothing else. -/
theorem raisesOnly_of_exec_eq_raiseIn {i : Instr} {k : FaultKind} {s : State}
    (hexec : exec i s = .next (s.raiseIn i k)) : RaisesOnly i k s :=
  ⟨s.raiseIn i k, hexec, State.halt_raiseIn s i k, State.fault_raiseIn s i k, unchanged_raiseIn s i k⟩

/-! ## Glyph addresses -/

/-- At most 0x050 + 5 × 0xF, so the address fits 16 bits (R172). -/
theorem toNat_glyphAddress (d : Fin 16) : (glyphAddress d).toNat = 0x050 + 5 * d.val := by
  rw [glyphAddress, BitVec.toNat_ofNat]
  omega

/-! ## The obligations -/

/-- Settles O35: the 12-bit immediate is widened without change, and only `I` is written. -/
theorem indexLoadsImmediate : Obligations.IndexLoadsImmediate := by
  unfold Obligations.IndexLoadsImmediate
  intro nnn s
  exact ⟨rfl, { s with index := zextAddr nnn }, rfl, toNat_zextAddr nnn, unchanged_setIndex s _⟩

/-- Settles O37: VX is a key digit, whose glyph address goes to `I`, or the reference to it is the fault raised. -/
theorem glyphAddressOrFault : Obligations.GlyphAddressOrFault := by
  unfold Obligations.GlyphAddressOrFault
  intro x s
  refine ⟨rfl, fun hdigit => ?digit, fun habove => ?fault⟩
  case digit =>
    exact ⟨_, execFX29_ok (keyDigit_ok hdigit), toNat_glyphAddress _, unchanged_setIndex s _⟩
  case fault => exact raisesOnly_of_exec_eq_raiseIn (execFX29_fault (keyDigit_error habove))

end Sys2Proof.Machine

/-! PROOFS of 43_display.md: clearing the pixel buffer, and the compositor. -/

namespace Sys2Proof.Machine

/-! ## Writing the pixel buffer alone -/

/-- The frame of an instruction that writes `PIX` only (R191). -/
theorem unchanged_setPix (s : State) (p : Pixels) : Unchanged [.pixels] s { s with pix := p } := by
  intro part hpart
  have hsame := Part.same_refl s part
  cases part
  case pixels => exact absurd (List.mem_singleton_self Part.pixels) hpart
  all_goals exact hsame

/-! ## The pixels under a list of sprite rows -/

/-- `spriteCovers` for a sprite given as the list of its rows, as `composite` takes it (R190). -/
def rowsCover (rows : List Byte) (x0 y0 x y : Nat) : Bool :=
  spriteCovers (fun j => rows.getD j 0) rows.length x0 y0 x y

@[simp] theorem rowsCover_nil (x0 y0 x y : Nat) : rowsCover [] x0 y0 x y = false := by
  have hempty : ¬ (x0 ≤ x ∧ x < x0 + 8 ∧ y0 ≤ y ∧ y < y0 + 0) := by omega
  rw [rowsCover, spriteCovers, List.length_nil, decide_eq_false hempty, Bool.false_and]

theorem rowsCover_cons_first (r : Byte) (rs : List Byte) (x0 y x : Nat) :
    rowsCover (r :: rs) x0 y x y = (decide (x0 ≤ x) && (spriteBits r).getD (x - x0) false) :=
  spriteCovers_first _ rs.length x0 y x

theorem rowsCover_cons_rest (r : Byte) (rs : List Byte) (x0 x : Nat) {y0 y : Nat} (h : y ≠ y0) :
    rowsCover (r :: rs) x0 y0 x y = rowsCover rs x0 (y0 + 1) x y :=
  spriteCovers_rest _ rs.length x0 y0 x h

theorem rowsCover_above (rows : List Byte) (x0 x : Nat) {y0 y : Nat} (h : y < y0) :
    rowsCover rows x0 y0 x y = false :=
  spriteCovers_above _ rows.length x0 x h

theorem le_of_rowsCover {rows : List Byte} {x0 y0 x y : Nat} (h : rowsCover rows x0 y0 x y = true) : y0 ≤ y := by
  by_contra hlt
  rw [rowsCover_above rows x0 x (not_le.mp hlt)] at h
  exact Bool.false_ne_true h

/-! ## One row of the sprite on the screen -/

theorem Canvas.get_drawBits_same_row (c : Canvas) (r : Byte) (rs : List Byte) (x : Nat) {y cx : Nat} (hy : y < 32)
    (hcx : cx < 64) : (c.drawBits x y (spriteBits r)).pix.get cx y =
      (rowsCover (r :: rs) x y cx y ^^ c.pix.get cx y) := by
  rw [Canvas.get_drawBits c x hy _ y hcx, rowsCover_cons_first]
  simp only [and_true]

theorem Canvas.get_drawBits_other_row (c : Canvas) (bits : List Bool) (x : Nat) {y cx cy : Nat} (hy : y < 32)
    (hcx : cx < 64) (hcy : cy ≠ y) : (c.drawBits x y bits).pix.get cx cy = c.pix.get cx cy := by
  rw [Canvas.get_drawBits c x hy bits cy hcx]
  simp [hcy]

/-- The collisions of the first row of a sprite are those on its own screen row. -/
theorem Canvas.collision_drawBits_first_row (c : Canvas) (r : Byte) (rs : List Byte) (x : Nat) {y : Nat}
    (hy : y < 32) : (c.drawBits x y (spriteBits r)).collision = true ↔ c.collision = true ∨
      ∃ cx, cx < 64 ∧ rowsCover (r :: rs) x y cx y = true ∧ c.pix.get cx y = true := by
  simp only [Canvas.collision_drawBits c x hy, rowsCover_cons_first, Bool.and_eq_true, decide_eq_true_eq, and_assoc,
    and_left_comm]

/-! ## All rows of the sprite on the screen -/

/-- The first row is XORed on screen row `y`, the others below it. A row at or under the bottom edge is not drawn,
and covers no pixel of the buffer. -/
theorem Canvas.get_drawRows (c : Canvas) (x y : Nat) (rows : List Byte) {cx cy : Nat} (hcx : cx < 64)
    (hcy : cy < 32) : (c.drawRows x y rows).pix.get cx cy = (rowsCover rows x y cx cy ^^ c.pix.get cx cy) := by
  induction rows generalizing c y with
  | nil => rw [rowsCover_nil, Bool.false_xor, Canvas.drawRows]
  | cons r rs ih =>
    rw [Canvas.drawRows]
    split
    case isTrue hbottom =>
      rw [rowsCover_above _ _ _ (show cy < y by omega), Bool.false_xor]
    case isFalse hinside =>
      have hy : y < 32 := by omega
      rw [ih]
      by_cases hrow : cy = y
      · subst hrow
        rw [rowsCover_above rs _ _ (Nat.lt_succ_self cy), Bool.false_xor, Canvas.get_drawBits_same_row c r rs x hy hcx]
      · rw [rowsCover_cons_rest r rs x cx hrow, Canvas.get_drawBits_other_row c _ x hy hcx hrow]

/-- Rows after the first meet the pixels as they were before the first was drawn: it touched its own screen row only,
which the others do not cover. -/
theorem Canvas.collision_drawRows (c : Canvas) (x y : Nat) (rows : List Byte) :
    (c.drawRows x y rows).collision = true ↔ c.collision = true ∨
      ∃ cx cy, cx < 64 ∧ cy < 32 ∧ rowsCover rows x y cx cy = true ∧ c.pix.get cx cy = true := by
  induction rows generalizing c y with
  | nil => simp [Canvas.drawRows]
  | cons r rs ih =>
    rw [Canvas.drawRows]
    split
    case isTrue hbottom =>
      refine ⟨.inl, fun h => h.elim id ?_⟩
      rintro ⟨cx, cy, -, hcy, hcover, -⟩
      have hbelow := le_of_rowsCover hcover
      omega
    case isFalse hinside =>
      have hy : y < 32 := by omega
      rw [ih, Canvas.collision_drawBits_first_row c r rs x hy, or_assoc]
      refine or_congr_right ⟨?_, ?_⟩
      · rintro (⟨cx, hcx, hfirst⟩ | ⟨cx, cy, hcx, hcy, hcover, hlit⟩)
        · exact ⟨cx, y, hcx, hy, hfirst⟩
        · have hrow : cy ≠ y := (Nat.lt_of_succ_le (le_of_rowsCover hcover)).ne'
          rw [← rowsCover_cons_rest r rs x cx hrow] at hcover
          rw [Canvas.get_drawBits_other_row c _ x hy hcx hrow] at hlit
          exact ⟨cx, cy, hcx, hcy, hcover, hlit⟩
      · rintro ⟨cx, cy, hcx, hcy, hcover, hlit⟩
        by_cases hrow : cy = y
        · subst hrow
          exact .inl ⟨cx, hcx, hcover, hlit⟩
        · rw [rowsCover_cons_rest r rs x cx hrow] at hcover
          rw [← Canvas.get_drawBits_other_row c (spriteBits r) x hy hcx hrow] at hlit
          exact .inr ⟨cx, cy, hcx, hcy, hcover, hlit⟩

/-! ## The obligations -/

/-- Settles O41: the meaning answers the state with the cleared buffer, and only `PIX` is written. -/
theorem clearUnlightsEveryPixel : Obligations.ClearUnlightsEveryPixel := by
  unfold Obligations.ClearUnlightsEveryPixel
  exact ⟨rfl, fun s => ⟨{ s with pix := Pixels.clear }, rfl, Pixels.get_clear, unchanged_setPix s _⟩⟩

/-- Settles O42: the composite is the rows drawn on a canvas with no collision yet. -/
theorem compositeXorsAndCollides : Obligations.CompositeXorsAndCollides := by
  unfold Obligations.CompositeXorsAndCollides
  intro p x0 y0 rows _ _
  refine ⟨fun x y hx hy => Canvas.get_drawRows ⟨p, false⟩ x0 y0 rows hx hy, ?collision⟩
  case collision =>
    refine (Canvas.collision_drawRows ⟨p, false⟩ x0 y0 rows).trans ?_
    exact or_iff_right Bool.false_ne_true

end Sys2Proof.Machine

/-! PROOFS of 44_keypad_timers.md: the key wait and the timer instructions, which write one part each. -/

namespace Sys2Proof.Machine

/-! ## Two transitions in a row -/

theorem Part.same_trans {s t u : State} {part : Part} (hst : Part.same s t part) (htu : Part.same t u part) :
    Part.same s u part := by
  cases part
  case regs | memory => exact fun a => (htu a).trans (hst a)
  case pixels => exact fun x y => (htu x y).trans (hst x y)
  case stack | fault => exact ⟨htu.1.trans hst.1, htu.2.trans hst.2⟩
  case index | pc | delay | sound | quirk | tone | env => exact Eq.trans htu hst

/-- What neither of two transitions writes is unchanged by both together. -/
theorem Unchanged.trans {l m : List Part} {s t u : State} (hst : Unchanged l s t) (htu : Unchanged m t u) :
    Unchanged (l ++ m) s u := by
  intro part hpart
  rw [List.mem_append, not_or] at hpart
  obtain ⟨hl, hm⟩ := hpart
  exact Part.same_trans (hst part hl) (htu part hm)

/-! ## Writing one timer alone, and the end of a cycle -/

/-- The frame of FX15 (R204). -/
theorem unchanged_setDt (s : State) (b : Byte) : Unchanged [.delay] s { s with dt := b } := by
  intro part hpart
  have hsame := Part.same_refl s part
  cases part
  case delay => exact absurd (List.mem_singleton_self Part.delay) hpart
  all_goals exact hsame

/-- The frame of FX18's execute stage (R205). -/
theorem unchanged_setSt (s : State) (b : Byte) : Unchanged [.sound] s { s with st := b } := by
  intro part hpart
  have hsame := Part.same_refl s part
  cases part
  case sound => exact absurd (List.mem_singleton_self Part.sound) hpart
  all_goals exact hsame

/-- The end of a cycle updates TONE and nothing else (R120, R235). -/
theorem unchanged_complete (s : State) : Unchanged [.tone] s s.complete := by
  intro part hpart
  have hsame := Part.same_refl s part
  cases part
  case tone => exact absurd (List.mem_singleton_self Part.tone) hpart
  all_goals exact hsame

/-- A cycle that raised no fault ends with TONE telling whether ST runs (R235). -/
theorem State.tone_complete_running {s : State} (hrun : s.halt = false) :
    s.complete.tone = decide (s.st ≠ 0) := by
  rw [State.tone_complete, hrun, if_neg Bool.false_ne_true]
  exact decide_not.symm

/-! ## The obligations -/

/-- Settles O47: a reported key is a `setReg` of VX, and a poll without one writes `PC` alone. -/
theorem keyWaitPolls : Obligations.KeyWaitPolls := by
  unfold Obligations.KeyWaitPolls
  intro x s
  refine ⟨rfl, fun k hkey => ?reported, fun hnone => ?waiting⟩
  case reported => exact writesReg_of_exec_eq_setReg (execFX0A_some hkey x)
  case waiting => exact ⟨_, execFX0A_none hnone x, rfl, unchanged_setPc s _⟩

/-- Settles O48: each meaning writes one register or timer, and FX18's cycle then ends on the state with the new
ST. -/
theorem timerAccess : Obligations.TimerAccess := by
  unfold Obligations.TimerAccess
  intro x s
  refine ⟨rfl, rfl, rfl, writesReg_of_exec_eq_setReg rfl, ?setDelay, ?setSound⟩
  case setDelay => exact ⟨{ s with dt := s.reg x }, rfl, rfl, unchanged_setDt s _⟩
  case setSound =>
    have hframe := unchanged_setSt s (s.reg x)
    refine ⟨{ s with st := s.reg x }, rfl, rfl, hframe, fun hrun => ?cycleEnd⟩
    case cycleEnd =>
      exact ⟨_, rfl, State.tone_complete_running hrun, hframe.trans (unchanged_complete _)⟩

end Sys2Proof.Machine

/-! PROOFS of 60_exceptions.md: the timers' saturation, and the fault of an invalid word. -/

namespace Sys2Proof.Machine

/-! ## Ticks in a row (R233, R234) -/

theorem toNat_iterate_countDown (n : Nat) (t : Byte) : (countDown^[n] t).toNat = t.toNat - n := by
  have hpred : Function.Semiconj BitVec.toNat countDown Nat.pred := countDown_toNat
  rw [hpred.iterate_right n t, Nat.pred_iterate]

theorem State.dt_iterate_tick (n : Nat) (s : State) : (State.tick^[n] s).dt = countDown^[n] s.dt := by
  have hdt : Function.Semiconj State.dt State.tick countDown := State.dt_tick
  exact hdt.iterate_right n s

theorem State.st_iterate_tick (n : Nat) (s : State) : (State.tick^[n] s).st = countDown^[n] s.st := by
  have hst : Function.Semiconj State.st State.tick countDown := State.st_tick
  exact hst.iterate_right n s

/-- The truncated subtraction of the model is the integer difference cut off at 0 (R234). -/
theorem toNat_iterate_countDown_eq_max (n : Nat) (t : Byte) :
    (countDown^[n] t).toNat = max 0 ((t.toNat : Int) - n) := by
  rw [toNat_iterate_countDown]
  omega

/-! ## What a decoded word's group asks of its fields (R95, R102) -/

theorem validGroup0_of_decodeGroup0_ok {w : Word} {i : Instr} (h : decodeGroup0 w = .ok i) :
    validGroup0 w = true := by
  unfold decodeGroup0 at h
  split at h
  case isTrue hcls => rw [hcls]; rfl
  case isFalse =>
    split at h
    case isTrue hret => rw [hret]; rfl
    case isFalse => cases h

theorem fieldN_of_decodeGroup8_ok {w : Word} {i : Instr} (h : decodeGroup8 w = .ok i) :
    fieldN w ∈ [0x0#4, 0x1#4, 0x2#4, 0x3#4, 0x4#4, 0x5#4, 0x6#4, 0x7#4, 0xE#4] := by
  unfold decodeGroup8 at h
  split at h
  case h_10 => cases h
  all_goals
    rename_i hn
    rw [hn]
    decide

theorem fieldNN_of_decodeGroupE_ok {w : Word} {i : Instr} (h : decodeGroupE w = .ok i) :
    fieldNN w = 0x9E ∨ fieldNN w = 0xA1 := by
  unfold decodeGroupE at h
  split at h
  case h_1 hb => exact .inl hb
  case h_2 hb => exact .inr hb
  case h_3 => cases h

theorem fieldNN_of_decodeGroupF_ok {w : Word} {i : Instr} (h : decodeGroupF w = .ok i) :
    fieldNN w ∈ [0x07#8, 0x0A#8, 0x15#8, 0x18#8, 0x1E#8, 0x29#8, 0x33#8, 0x55#8, 0x65#8] := by
  unfold decodeGroupF at h
  split at h
  case h_10 => cases h
  all_goals
    rename_i hb
    rw [hb]
    decide

open Sys2Proof.Laws.EncodesValid in
/-- The decoder accepts no word outside Valid (R94, R96). -/
theorem validWord_of_decode_ok {w : Word} {i : Instr} (h : decode w = .ok i) : validWord w = true := by
  unfold decode at h
  split at h
  case h_1 hop => simp [validWord_iff_fields, hop, validGroup0_of_decodeGroup0_ok h]
  case h_6 hop | h_10 hop =>
    split at h
    case isTrue hn => exact valid_of_group59 (by simp [hop]) hn
    case isFalse => cases h
  case h_9 hop => exact valid_of_group8 hop (fieldN_of_decodeGroup8_ok h)
  case h_15 hop => exact valid_of_groupE hop (fieldNN_of_decodeGroupE_ok h)
  case h_16 hop => exact valid_of_groupF hop (fieldNN_of_decodeGroupF_ok h)
  case h_17 => cases h
  all_goals
    rename_i hop
    apply valid_of_open_group <;> simp [hop]

theorem decode_error_of_not_validWord {w : Word} (hinvalid : validWord w = false) :
    ∃ r, decode w = .error r := by
  cases hdecode : decode w with
  | error r => exact ⟨r, rfl⟩
  | ok i => exact absurd (validWord_of_decode_ok hdecode) (Bool.eq_false_iff.mp hinvalid)

/-! ## Frames of a cycle's stages -/

theorem Unchanged.mono {l m : List Part} {s t : State} (hlm : l ⊆ m) (h : Unchanged l s t) : Unchanged m s t :=
  fun part hpart => h part fun hl => hpart (hlm hl)

/-- A raise writes HALT and FAULT only, whatever it records (R244). -/
theorem unchanged_raise (s : State) (k : FaultKind) (a : Word) (w : Option Word) :
    Unchanged [.fault] s (s.raise k a w) := by
  intro part hpart
  have hsame := Part.same_refl s part
  cases part
  case fault => exact absurd (List.mem_singleton_self Part.fault) hpart
  all_goals exact hsame

/-- Taking the event and sampling the inputs touch the model's own surroundings only (log 3, log 4, log 5). -/
theorem unchanged_dropEvent_begin (s : State) (signals : Inputs) :
    Unchanged [.env] s (s.dropEvent.begin signals) := by
  intro part hpart
  have hsame := Part.same_refl s part
  cases part
  case env => exact absurd (List.mem_singleton_self Part.env) hpart
  all_goals exact hsame

/-! ## The cycle of an invalid word (R221) -/

theorem cycle_invalid {s : State} {r : Reject} (hpc : s.pc.toNat ≤ 0xFFE) (hreject : decode s.fetched = .error r) :
    cycle s = .next (s.advance.raise .invalidInstruction s.pc (some s.fetched)) := by
  rw [cycle_fetched hpc, runWord_invalid hreject]

theorem unchanged_advance_raise (s : State) (k : FaultKind) (a : Word) (w : Option Word) :
    Unchanged [.pc, .fault] s (s.advance.raise k a w) :=
  (unchanged_setPc s (s.pc + 2)).trans (unchanged_raise s.advance k a w)

/-! ## The obligations -/

/-- Settles O15: N ticks count each timer down N times, and N countdowns subtract N, never below 0. -/
theorem ticksSaturate : Obligations.TicksSaturate := by
  unfold Obligations.TicksSaturate
  intro n s
  rw [State.dt_iterate_tick, State.st_iterate_tick]
  exact ⟨toNat_iterate_countDown_eq_max n s.dt, toNat_iterate_countDown_eq_max n s.st⟩

/-- Settles O9: the decoder rejects the fetched word, so the cycle ends in the raise after `PC` has advanced. -/
theorem invalidWordHalts : Obligations.InvalidWordHalts := by
  unfold Obligations.InvalidWordHalts
  intro s signals hrun hevent hpc hinvalid
  obtain ⟨r, hreject⟩ := decode_error_of_not_validWord hinvalid
  have hstep := calc
    step s = cycle (s.dropEvent.begin signals) := step_cycle hevent hrun
    _ = .next _ := cycle_invalid hpc hreject
  refine ⟨_, hstep, rfl, rfl, rfl, rfl, ?frame⟩
  case frame =>
    exact ((unchanged_dropEvent_begin s signals).trans (unchanged_advance_raise _ _ _ _)).mono (by decide)

end Sys2Proof.Machine

/-! PROOFS of 30_encoding.md: the decoder, the encoder and the opcode map. -/

namespace Sys2Proof.Machine

/-! ## The decoder by group (R102) -/

theorem decode_of_group8 {w : Word} (hop : fieldOP w = 0x8) : decode w = decodeGroup8 w := by
  rw [decode, hop]; rfl

theorem decode_of_groupE {w : Word} (hop : fieldOP w = 0xE) : decode w = decodeGroupE w := by
  rw [decode, hop]; rfl

theorem decode_of_groupF {w : Word} (hop : fieldOP w = 0xF) : decode w = decodeGroupF w := by
  rw [decode, hop]; rfl

/-- Settles O1: the fields of a built word are the operands, and they lead the decoder back to the constructor. -/
theorem decodeEncodeRoundTrip : Obligations.DecodeEncodeRoundTrip := by
  unfold Obligations.DecodeEncodeRoundTrip
  intro i
  cases i
  case op00E0 | op00EE => rfl
  case op8XY0 | op8XY1 | op8XY2 | op8XY3 | op8XY4 | op8XY5 | op8XY6 | op8XY7 | op8XYE =>
    rw [decode_of_group8 (by simp [encode])]
    simp [encode, decodeGroup8]
  case opEX9E | opEXA1 =>
    rw [decode_of_groupE (by simp [encode])]
    simp [encode, decodeGroupE]
  case opFX07 | opFX0A | opFX15 | opFX18 | opFX1E | opFX29 | opFX33 | opFX55 | opFX65 =>
    rw [decode_of_groupF (by simp [encode])]
    simp [encode, decodeGroupF]
  all_goals simp [encode, decode]

/-! ## A decoded word is rebuilt from its fields -/

theorem encode_of_decodeGroup0 {w : Word} {i : Instr} (h : decodeGroup0 w = .ok i) : encode i = w := by
  unfold decodeGroup0 at h
  split at h
  case isTrue hcls => cases h; exact hcls.symm
  case isFalse =>
    split at h
    case isTrue hret => cases h; exact hret.symm
    case isFalse => cases h

theorem encode_of_decodeGroup8 {w : Word} {i : Instr} (hop : fieldOP w = 0x8) (h : decodeGroup8 w = .ok i) :
    encode i = w := by
  have hw := formatXYN_fields w
  unfold decodeGroup8 at h
  split at h
  case h_10 => cases h
  all_goals
    rename_i hn
    cases h
    rw [hop, hn] at hw
    exact hw

theorem encode_of_decodeGroupE {w : Word} {i : Instr} (hop : fieldOP w = 0xE) (h : decodeGroupE w = .ok i) :
    encode i = w := by
  have hw := formatXNN_fields w
  unfold decodeGroupE at h
  split at h
  case h_3 => cases h
  all_goals
    rename_i hb
    cases h
    rw [hop, hb] at hw
    exact hw

theorem encode_of_decodeGroupF {w : Word} {i : Instr} (hop : fieldOP w = 0xF) (h : decodeGroupF w = .ok i) :
    encode i = w := by
  have hw := formatXNN_fields w
  unfold decodeGroupF at h
  split at h
  case h_10 => cases h
  all_goals
    rename_i hb
    cases h
    rw [hop, hb] at hw
    exact hw

/-- Settles O2: each arm of the decoder fixes the selecting fields, and a word is what its fields build. -/
theorem decodedWordIsItsEncoding : Obligations.DecodedWordIsItsEncoding := by
  unfold Obligations.DecodedWordIsItsEncoding
  intro w i h
  have hNNN := formatNNN_fields w
  have hXNN := formatXNN_fields w
  have hXYN := formatXYN_fields w
  unfold decode at h
  split at h
  case h_1 => exact encode_of_decodeGroup0 h
  case h_9 hop => exact encode_of_decodeGroup8 hop h
  case h_15 hop => exact encode_of_decodeGroupE hop h
  case h_16 hop => exact encode_of_decodeGroupF hop h
  case h_6 hop | h_10 hop =>
    split at h
    case isTrue hn =>
      cases h
      rw [hop, hn] at hXYN
      exact hXYN
    case isFalse => cases h
  case h_2 hop | h_3 hop | h_11 hop | h_12 hop =>
    cases h
    rw [hop] at hNNN
    exact hNNN
  case h_4 hop | h_5 hop | h_7 hop | h_8 hop | h_13 hop =>
    cases h
    rw [hop] at hXNN
    exact hXNN
  case h_14 hop =>
    cases h
    rw [hop] at hXYN
    exact hXYN
  case h_17 => cases h

/-! ## What the decoder rejects (R94, R96) -/

theorem decodeGroup0_error {w : Word} {r : Reject} (h : decodeGroup0 w = .error r) :
    r = .invalidInstruction w ∧ validGroup0 w = false := by
  unfold decodeGroup0 at h
  split at h
  case isTrue => cases h
  case isFalse hcls =>
    split at h
    case isTrue => cases h
    case isFalse hret =>
      cases h
      exact ⟨rfl, Bool.or_eq_false_iff.mpr ⟨beq_false_of_ne hcls, beq_false_of_ne hret⟩⟩

theorem decodeGroup8_error {w : Word} {r : Reject} (h : decodeGroup8 w = .error r) :
    r = .invalidInstruction w ∧ validGroup8 w = false := by
  unfold decodeGroup8 at h
  split at h
  case h_10 =>
    cases h
    exact ⟨rfl, by simp_all [validGroup8, fieldN]⟩
  all_goals cases h

theorem decodeGroupE_error {w : Word} {r : Reject} (h : decodeGroupE w = .error r) :
    r = .invalidInstruction w ∧ (fieldNN w == 0x9E || fieldNN w == 0xA1) = false := by
  unfold decodeGroupE at h
  split at h
  case h_3 hskp hsknp =>
    cases h
    exact ⟨rfl, Bool.or_eq_false_iff.mpr ⟨beq_false_of_ne hskp, beq_false_of_ne hsknp⟩⟩
  all_goals cases h

theorem decodeGroupF_error {w : Word} {r : Reject} (h : decodeGroupF w = .error r) :
    r = .invalidInstruction w ∧ validGroupF w = false := by
  unfold decodeGroupF at h
  split at h
  case h_10 =>
    cases h
    exact ⟨rfl, by simp_all [validGroupF, fieldNN]⟩
  all_goals cases h

/-- The decoder rejects by name, and only words outside Valid. -/
theorem decode_error {w : Word} {r : Reject} (h : decode w = .error r) :
    r = .invalidInstruction w ∧ validWord w = false := by
  rw [Laws.EncodesValid.validWord_iff_fields]
  unfold decode at h
  split at h
  case h_1 hop => simpa [hop] using decodeGroup0_error h
  case h_6 hop | h_10 hop =>
    split at h
    case isTrue => cases h
    case isFalse hn =>
      cases h
      exact ⟨rfl, by simpa [hop] using hn⟩
  case h_9 hop => simpa [hop] using decodeGroup8_error h
  case h_15 hop => simpa [hop] using decodeGroupE_error h
  case h_16 hop => simpa [hop] using decodeGroupF_error h
  case h_17 h0 h1 h2 h3 h4 h5 h6 h7 h8 h9 hA hB hC hD hE hF =>
    exfalso
    revert h0 h1 h2 h3 h4 h5 h6 h7 h8 h9 hA hB hC hD hE hF
    generalize fieldOP w = op
    revert op
    decide
  all_goals cases h

/-- Settles O3: a rejected word is outside Valid, and an accepted one is in it. -/
theorem decoderAcceptsExactlyValid : Obligations.DecoderAcceptsExactlyValid := by
  unfold Obligations.DecoderAcceptsExactlyValid
  intro w
  cases hdecode : decode w with
  | ok i => simp [validWord_of_decode_ok hdecode]
  | error r =>
    obtain ⟨hname, hinvalid⟩ := decode_error hdecode
    simp [hname, hinvalid]

/-! ## Rows of the opcode map (R95) -/

theorem matches_iff {r : OpcodeRow} {w : Word} : r.matches w = true ↔ w &&& r.mask = r.pattern := beq_iff_eq

/-- Two rows that some word matches agree where both masks look. -/
theorem pattern_and_mask_eq_of_matches {r q : OpcodeRow} {w : Word} (hr : r.matches w = true)
    (hq : q.matches w = true) : r.pattern &&& q.mask = q.pattern &&& r.mask := by
  rw [← matches_iff.mp hr, ← matches_iff.mp hq, BitVec.and_assoc, BitVec.and_assoc, BitVec.and_comm r.mask]

theorem opcodeTable_pairwise_pattern_ne :
    opcodeTable.Pairwise (fun r q => r.pattern &&& q.mask ≠ q.pattern &&& r.mask) := by decide

theorem opcodeTable_pairwise_disjoint :
    opcodeTable.Pairwise (fun r q => ∀ w, ¬ (r.matches w = true ∧ q.matches w = true)) :=
  opcodeTable_pairwise_pattern_ne.imp fun hne _ ⟨hr, hq⟩ => hne (pattern_and_mask_eq_of_matches hr hq)

theorem opcodeTable_pairwise_mnemonic_ne :
    opcodeTable.Pairwise (fun r q => r.mnemonic ≠ q.mnemonic) := by decide

theorem fieldOP_and (v w : Word) : fieldOP (v &&& w) = fieldOP v &&& fieldOP w := BitVec.extractLsb'_and ..
theorem fieldN_and (v w : Word) : fieldN (v &&& w) = fieldN v &&& fieldN w := BitVec.extractLsb'_and ..
theorem fieldNN_and (v w : Word) : fieldNN (v &&& w) = fieldNN v &&& fieldNN w := BitVec.extractLsb'_and ..

/-! ## The part of a word that selects its instruction -/

/-- The bits Valid looks at in a group: all of group 0, OP and the low nibble or the low byte of a group with
sub-opcodes, OP alone elsewhere (R94). -/
def selectorMask (op : BitVec 4) : Word :=
  if op = 0x0 then 0xFFFF
  else if op ∈ [0x5#4, 0x8#4, 0x9#4] then 0xF00F
  else if op ∈ [0xE#4, 0xF#4] then 0xF0FF
  else 0xF000

theorem fieldOP_selectorMask (op : BitVec 4) : fieldOP (selectorMask op) = BitVec.allOnes 4 := by
  revert op
  decide

theorem and_0xFFFF (w : Word) : w &&& 0xFFFF = w := BitVec.and_allOnes

theorem fieldN_and_0xF00F (w : Word) : fieldN (w &&& 0xF00F) = fieldN w := by
  rw [fieldN_and]
  exact BitVec.and_allOnes

theorem fieldNN_and_0xF0FF (w : Word) : fieldNN (w &&& 0xF0FF) = fieldNN w := by
  rw [fieldNN_and]
  exact BitVec.and_allOnes

theorem fieldOP_and_selectorMask (w : Word) (op : BitVec 4) : fieldOP (w &&& selectorMask op) = fieldOP w := by
  rw [fieldOP_and, fieldOP_selectorMask, BitVec.and_allOnes]

theorem validGroup8_congr {v w : Word} (h : fieldN v = fieldN w) : validGroup8 v = validGroup8 w := by
  unfold fieldN at h
  simp only [validGroup8, h]

theorem validGroupF_congr {v w : Word} (h : fieldNN v = fieldNN w) : validGroupF v = validGroupF w := by
  unfold fieldNN at h
  simp only [validGroupF, h]

/-- Valid reads nothing but the selecting bits. -/
theorem validWord_congr {v w : Word} (h : v &&& selectorMask (fieldOP w) = w &&& selectorMask (fieldOP w)) :
    validWord v = validWord w := by
  have hOP : fieldOP v = fieldOP w := by
    rw [← fieldOP_and_selectorMask v (fieldOP w), h, fieldOP_and_selectorMask]
  have hword (hm : selectorMask (fieldOP w) = 0xFFFF) : v = w := by
    rw [hm] at h
    rw [← and_0xFFFF v, h, and_0xFFFF]
  have hN (hm : selectorMask (fieldOP w) = 0xF00F) : fieldN v = fieldN w := by
    rw [hm] at h
    rw [← fieldN_and_0xF00F v, h, fieldN_and_0xF00F]
  have hNN (hm : selectorMask (fieldOP w) = 0xF0FF) : fieldNN v = fieldNN w := by
    rw [hm] at h
    rw [← fieldNN_and_0xF0FF v, h, fieldNN_and_0xF0FF]
  rw [Laws.EncodesValid.validWord_iff_fields, Laws.EncodesValid.validWord_iff_fields, hOP]
  generalize fieldOP w = op at hword hN hNN
  refine ite_congr rfl (fun hop => ?group0) fun _ => ite_congr rfl (fun hop => ?group59) fun _ =>
    ite_congr rfl (fun hop => ?group8) fun _ => ite_congr rfl (fun hop => ?groupE) fun _ =>
    ite_congr rfl (fun hop => ?groupF) fun _ => rfl
  case group0 => rw [hword (by rw [eq_of_beq hop]; rfl)]
  case group59 =>
    rcases Bool.or_eq_true_iff.mp hop with hop | hop <;> rw [hN (by rw [eq_of_beq hop]; rfl)]
  case group8 => exact validGroup8_congr (hN (by rw [eq_of_beq hop]; rfl))
  case groupE => rw [hNN (by rw [eq_of_beq hop]; rfl)]
  case groupF => exact validGroupF_congr (hNN (by rw [eq_of_beq hop]; rfl))

theorem opcodeTable_selects :
    ∀ r ∈ opcodeTable, r.mask = selectorMask (fieldOP r.pattern) ∧ r.pattern &&& r.mask = r.pattern ∧
      validWord r.pattern = true := by decide

theorem validWord_of_matches {r : OpcodeRow} {w : Word} (hr : r ∈ opcodeTable) (hm : r.matches w = true) :
    validWord w = true := by
  obtain ⟨hmask, hpattern, hvalid⟩ := opcodeTable_selects r hr
  rw [← hvalid]
  refine validWord_congr ?_
  rw [← hmask, matches_iff.mp hm, hpattern]

/-! ## The row of an instruction -/

theorem formatNNN_and_0xF000 (op : BitVec 4) (nnn : Addr12) : formatNNN op nnn &&& 0xF000 = formatNNN op 0 := by
  change (op ++ nnn) &&& (BitVec.allOnes 4 ++ 0#12) = op ++ 0#12
  rw [BitVec.and_append, BitVec.and_allOnes, BitVec.and_zero]

theorem formatXNN_and_0xF000 (op : BitVec 4) (x : RegNo) (nn : Byte) :
    formatXNN op x nn &&& 0xF000 = formatXNN op 0 0 := by
  change (op ++ x ++ nn) &&& (BitVec.allOnes 4 ++ 0#4 ++ 0#8) = op ++ 0#4 ++ 0#8
  simp only [BitVec.and_append, BitVec.and_allOnes, BitVec.and_zero]

theorem formatXNN_and_0xF0FF (op : BitVec 4) (x : RegNo) (nn : Byte) :
    formatXNN op x nn &&& 0xF0FF = formatXNN op 0 nn := by
  change (op ++ x ++ nn) &&& (BitVec.allOnes 4 ++ 0#4 ++ BitVec.allOnes 8) = op ++ 0#4 ++ nn
  simp only [BitVec.and_append, BitVec.and_allOnes, BitVec.and_zero]

theorem formatXYN_and_0xF000 (op : BitVec 4) (x y : RegNo) (n : BitVec 4) :
    formatXYN op x y n &&& 0xF000 = formatXYN op 0 0 0 := by
  change (op ++ x ++ y ++ n) &&& (BitVec.allOnes 4 ++ 0#4 ++ 0#4 ++ 0#4) =
    op ++ 0#4 ++ 0#4 ++ 0#4
  simp only [BitVec.and_append, BitVec.and_allOnes, BitVec.and_zero]

theorem formatXYN_and_0xF00F (op : BitVec 4) (x y : RegNo) (n : BitVec 4) :
    formatXYN op x y n &&& 0xF00F = formatXYN op 0 0 n := by
  change (op ++ x ++ y ++ n) &&& (BitVec.allOnes 4 ++ 0#4 ++ 0#4 ++ BitVec.allOnes 4) =
    op ++ 0#4 ++ 0#4 ++ n
  simp only [BitVec.and_append, BitVec.and_allOnes, BitVec.and_zero]

/-- The row of the opcode map that `i` belongs to: its mnemonic, and its word seen through the selecting bits. -/
def rowOf (i : Instr) : OpcodeRow :=
  ⟨mnemonic i, selectorMask (fieldOP (encode i)), encode i &&& selectorMask (fieldOP (encode i))⟩

theorem rowOf_matches_encode (i : Instr) : (rowOf i).matches (encode i) = true := matches_iff.mpr rfl

theorem rowOf_mem (i : Instr) : rowOf i ∈ opcodeTable := by
  unfold rowOf
  cases i
  case op00E0 | op00EE => decide
  case op1NNN | op2NNN | opANNN | opBNNN =>
    rw [encode, fieldOP_formatNNN, show selectorMask _ = 0xF000 from rfl, formatNNN_and_0xF000, mnemonic]
    decide
  case op3XNN | op4XNN | op6XNN | op7XNN | opCXNN =>
    rw [encode, fieldOP_formatXNN, show selectorMask _ = 0xF000 from rfl, formatXNN_and_0xF000, mnemonic]
    decide
  case opDXYN =>
    rw [encode, fieldOP_formatXYN, show selectorMask _ = 0xF000 from rfl, formatXYN_and_0xF000, mnemonic]
    decide
  case op5XY0 | op9XY0 | op8XY0 | op8XY1 | op8XY2 | op8XY3 | op8XY4 | op8XY5 | op8XY6 | op8XY7 | op8XYE =>
    rw [encode, fieldOP_formatXYN, show selectorMask _ = 0xF00F from rfl, formatXYN_and_0xF00F, mnemonic]
    decide
  case opEX9E | opEXA1 | opFX07 | opFX0A | opFX15 | opFX18 | opFX1E | opFX29 | opFX33 | opFX55 | opFX65 =>
    rw [encode, fieldOP_formatXNN, show selectorMask _ = 0xF0FF from rfl, formatXNN_and_0xF0FF, mnemonic]
    decide

/-- Where no two entries of a list are related, related members are the same one. -/
theorem eq_of_pairwise_not {α : Type} {l : List α} {R : α → α → Prop} (hsymm : ∀ a b, R a b → R b a)
    (h : l.Pairwise fun a b => ¬ R a b) {a b : α} (ha : a ∈ l) (hb : b ∈ l) (hab : R a b) : a = b := by
  by_contra hne
  have : Std.Symm fun a b => ¬ R a b := ⟨fun a b hn hba => hn (hsymm b a hba)⟩
  exact h.forall ha hb hne hab

theorem eq_of_matches {r q : OpcodeRow} {w : Word} (hr : r ∈ opcodeTable) (hq : q ∈ opcodeTable)
    (hrw : r.matches w = true) (hqw : q.matches w = true) : r = q :=
  eq_of_pairwise_not (R := fun r q => ∃ w, r.matches w = true ∧ q.matches w = true)
    (fun _ _ ⟨w, h⟩ => ⟨w, h.symm⟩) (opcodeTable_pairwise_disjoint.imp fun h ⟨w, hw⟩ => h w hw) hr hq
    ⟨w, hrw, hqw⟩

theorem eq_of_mnemonic_eq {r q : OpcodeRow} (hr : r ∈ opcodeTable) (hq : q ∈ opcodeTable)
    (h : r.mnemonic = q.mnemonic) : r = q :=
  eq_of_pairwise_not (R := fun r q => r.mnemonic = q.mnemonic) (fun _ _ => Eq.symm)
    opcodeTable_pairwise_mnemonic_ne hr hq h

/-- Settles O4: two rows differ where both masks look, a valid word is the encoding of what it decodes to, and a
matching word agrees with the row's pattern on all that Valid reads. -/
theorem opcodeRowsDisjointAndComplete : Obligations.OpcodeRowsDisjointAndComplete := by
  unfold Obligations.OpcodeRowsDisjointAndComplete
  refine ⟨rfl, opcodeTable_pairwise_disjoint, fun w => ⟨fun hvalid => ?covered, ?valid⟩⟩
  case covered =>
    obtain ⟨i, hdecode⟩ := (decoderAcceptsExactlyValid w).1.mp hvalid
    rw [← decodedWordIsItsEncoding w i hdecode]
    exact ⟨rowOf i, rowOf_mem i, rowOf_matches_encode i⟩
  case valid =>
    rintro ⟨r, hr, hmatch⟩
    exact validWord_of_matches hr hmatch

/-- Settles O5: `rowOf i` is the one row that matches the word, and the one row with the mnemonic. -/
theorem encodingMatchesItsRowOnly : Obligations.EncodingMatchesItsRowOnly := by
  unfold Obligations.EncodingMatchesItsRowOnly
  intro i
  refine ⟨⟨rowOf i, rowOf_mem i, rfl⟩, fun r hr => ⟨fun hmatch => ?mnemonic, fun hmnemonic => ?own⟩⟩
  case mnemonic => rw [eq_of_matches hr (rowOf_mem i) hmatch (rowOf_matches_encode i), rowOf]
  case own =>
    rw [eq_of_mnemonic_eq hr (rowOf_mem i) hmnemonic]
    exact rowOf_matches_encode i

/-- Settles O6: the decoder computes on each of the seven words. -/
theorem sampleWordsDecode : Obligations.SampleWordsDecode := by
  unfold Obligations.SampleWordsDecode
  exact ⟨rfl, rfl, rfl, rfl, rfl, rfl, rfl⟩

end Sys2Proof.Machine

/-! PROOFS of the frame of every instruction: the parts of the state it can write, and the faults it can raise. -/

namespace Sys2Proof.Machine

/-! ## What the checks and the key digit can raise -/

theorem checkRead_eq_some {base count : Nat} {k : FaultKind} (h : checkRead base count = some k) :
    k = .addressOutOfRange base count := by
  unfold checkRead at h
  split at h
  · exact (Option.some.inj h).symm
  · cases h

theorem checkWrite_eq_some {base count : Nat} {k : FaultKind} (h : checkWrite base count = some k) :
    k = .addressOutOfRange base count ∨ k = .fontTableWrite base := by
  unfold checkWrite at h
  split at h
  · exact .inl (Option.some.inj h).symm
  · split at h
    · exact .inr (Option.some.inj h).symm
    · cases h

theorem keyDigit_eq_error {b : Byte} {k : FaultKind} (h : keyDigit b = .error k) : k = .outOfRangeKeyReference b := by
  unfold keyDigit at h
  split at h
  · cases h
  · exact (Except.error.inj h).symm

/-! ## The parts an instruction can write, and the faults it can raise -/

/-- The parts of the state that the execute stage of an instruction can write where it completes. -/
def writtenParts : Instr → List Part
  | .op00E0 => [.pixels]
  | .op00EE | .op2NNN _ => [.pc, .stack]
  | .op1NNN _ | .op3XNN _ _ | .op4XNN _ _ | .op5XY0 _ _ | .op9XY0 _ _ | .opBNNN _ | .opEX9E _ | .opEXA1 _ => [.pc]
  | .op6XNN _ _ | .op7XNN _ _ | .op8XY0 _ _ | .op8XY1 _ _ | .op8XY2 _ _ | .op8XY3 _ _ | .op8XY4 _ _ | .op8XY5 _ _
  | .op8XY6 _ _ | .op8XY7 _ _ | .op8XYE _ _ | .opCXNN _ _ | .opFX07 _ => [.regs]
  | .opANNN _ | .opFX29 _ => [.index]
  | .opDXYN _ _ _ => [.regs, .pixels]
  | .opFX0A _ => [.regs, .pc]
  | .opFX15 _ => [.delay]
  | .opFX18 _ => [.sound]
  | .opFX1E _ | .opFX65 _ => [.regs, .index]
  | .opFX33 _ => [.memory]
  | .opFX55 _ => [.memory, .index]

/-- The faults R228 lists for an instruction, each with the information it carries. -/
def ListedFault (s : State) : Instr → FaultKind → Prop
  | .op00EE, k => k = .stackUnderflow
  | .op2NNN _, k => k = .stackOverflow
  | .opEX9E x, k | .opEXA1 x, k | .opFX29 x, k => k = .outOfRangeKeyReference (s.reg x)
  | .opDXYN _ _ n, k => 0 < n.toNat ∧ k = .addressOutOfRange s.index.toNat n.toNat
  | .opFX65 x, k => k = .addressOutOfRange s.index.toNat (x.toNat + 1)
  | .opFX33 _, k => k = .addressOutOfRange s.index.toNat 3 ∨ k = .fontTableWrite s.index.toNat
  | .opFX55 x, k => k = .addressOutOfRange s.index.toNat (x.toNat + 1) ∨ k = .fontTableWrite s.index.toNat
  | _, _ => False

/-- `s` with the listed parts taken from `t`, of those that instructions write. -/
def State.overwrite (s t : State) (l : List Part) : State :=
  { s with
    v := if .regs ∈ l then t.v else s.v
    index := if .index ∈ l then t.index else s.index
    pc := if .pc ∈ l then t.pc else s.pc
    stack := if .stack ∈ l then t.stack else s.stack
    spFree := if .stack ∈ l then t.spFree else s.spFree
    dt := if .delay ∈ l then t.dt else s.dt
    st := if .sound ∈ l then t.st else s.st
    pix := if .pixels ∈ l then t.pix else s.pix
    mem := if .memory ∈ l then t.mem else s.mem }

/-- What an instruction can do: it completes and writes nothing but its own parts, or it raises a listed fault. -/
theorem exec_writes {i : Instr} {s t : State} (h : exec i s = .next t) :
    t = s.overwrite t (writtenParts i) ∨ ∃ k, ListedFault s i k ∧ t = s.raiseIn i k := by
  cases i
  case op00EE =>
    by_cases hempty : s.spFree.val = 16
    · rw [exec00EE_empty hempty] at h; cases h; exact .inr ⟨_, rfl, rfl⟩
    · rw [exec00EE_ok hempty] at h; cases h; exact .inl rfl
  case op2NNN nnn =>
    by_cases hfull : s.spFree.val = 0
    · rw [exec2NNN_full hfull] at h; cases h; exact .inr ⟨_, rfl, rfl⟩
    · rw [exec2NNN_ok hfull] at h; cases h; exact .inl rfl
  case opEX9E x =>
    cases hk : keyDigit (s.reg x)
    · rw [execEX9E_fault hk] at h; cases h; exact .inr ⟨_, keyDigit_eq_error hk, rfl⟩
    · rw [execEX9E_ok hk] at h; cases h; exact .inl rfl
  case opEXA1 x =>
    cases hk : keyDigit (s.reg x)
    · rw [execEXA1_fault hk] at h; cases h; exact .inr ⟨_, keyDigit_eq_error hk, rfl⟩
    · rw [execEXA1_ok hk] at h; cases h; exact .inl rfl
  case opFX29 x =>
    cases hk : keyDigit (s.reg x)
    · rw [execFX29_fault hk] at h; cases h; exact .inr ⟨_, keyDigit_eq_error hk, rfl⟩
    · rw [execFX29_ok hk] at h; cases h; exact .inl rfl
  case opFX33 x =>
    cases hc : checkWrite s.index.toNat 3
    · rw [execFX33_ok hc] at h; cases h; exact .inl rfl
    · rw [execFX33_fault hc] at h; cases h; exact .inr ⟨_, checkWrite_eq_some hc, rfl⟩
  case opFX55 x =>
    cases hc : checkWrite s.index.toNat (x.toNat + 1)
    · rw [execFX55_ok hc] at h; cases h; exact .inl rfl
    · rw [execFX55_fault hc] at h; cases h; exact .inr ⟨_, checkWrite_eq_some hc, rfl⟩
  case opFX65 x =>
    cases hc : checkRead s.index.toNat (x.toNat + 1)
    · rw [execFX65_ok hc] at h; cases h; exact .inl rfl
    · rw [execFX65_fault hc] at h; cases h; exact .inr ⟨_, checkRead_eq_some hc, rfl⟩
  case opDXYN x y n =>
    by_cases hfault : 0 < n.toNat ∧ 0xFFF < s.index.toNat + n.toNat - 1
    · obtain ⟨hpos, hrange⟩ := hfault
      rw [execDXYN_fault hpos hrange] at h; cases h; exact .inr ⟨_, ⟨hpos, rfl⟩, rfl⟩
    · rw [execDXYN_ok (by omega)] at h; cases h; exact .inl rfl
  case opFX0A x =>
    cases hkey : s.env.inputs.keyLatest
    · rw [execFX0A_none hkey] at h; cases h; exact .inl rfl
    · rw [execFX0A_some hkey] at h; cases h; exact .inl rfl
  all_goals
    cases h
    exact .inl rfl

section
variable {i : Instr} {s t : State}

theorem exec_v_kept (h : exec i s = .next t) (hw : Part.regs ∉ writtenParts i) : t.v = s.v := by
  obtain heq | ⟨k, -, rfl⟩ := exec_writes h
  · exact (congrArg State.v heq).trans (if_neg hw)
  · rfl

theorem exec_pc_kept (h : exec i s = .next t) (hw : Part.pc ∉ writtenParts i) : t.pc = s.pc := by
  obtain heq | ⟨k, -, rfl⟩ := exec_writes h
  · exact (congrArg State.pc heq).trans (if_neg hw)
  · rfl

theorem exec_stack_kept (h : exec i s = .next t) (hw : Part.stack ∉ writtenParts i) :
    t.stack = s.stack ∧ t.spFree = s.spFree := by
  obtain heq | ⟨k, -, rfl⟩ := exec_writes h
  · exact ⟨(congrArg State.stack heq).trans (if_neg hw), (congrArg State.spFree heq).trans (if_neg hw)⟩
  · exact ⟨rfl, rfl⟩

theorem exec_pix_kept (h : exec i s = .next t) (hw : Part.pixels ∉ writtenParts i) : t.pix = s.pix := by
  obtain heq | ⟨k, -, rfl⟩ := exec_writes h
  · exact (congrArg State.pix heq).trans (if_neg hw)
  · rfl

theorem exec_mem_kept (h : exec i s = .next t) (hw : Part.memory ∉ writtenParts i) : t.mem = s.mem := by
  obtain heq | ⟨k, -, rfl⟩ := exec_writes h
  · exact (congrArg State.mem heq).trans (if_neg hw)
  · rfl

/-- From a running state, an instruction that halts the machine has raised a fault of its list. -/
theorem exec_halts (h : exec i s = .next t) (hrun : s.halt = false) (hhalt : t.halt = true) :
    ∃ k, ListedFault s i k ∧ t = s.raiseIn i k := by
  obtain heq | hraise := exec_writes h
  · have hkept : t.halt = s.halt := by rw [heq]; rfl
    rw [hrun, hhalt] at hkept
    cases hkept
  · exact hraise

end

theorem eq_of_memory_mem_writtenParts {i : Instr} (h : Part.memory ∈ writtenParts i) :
    (∃ x, i = .opFX33 x) ∨ ∃ x, i = .opFX55 x := by
  cases i
  case opFX33 x => exact .inl ⟨x, rfl⟩
  case opFX55 x => exact .inr ⟨x, rfl⟩
  all_goals simp [writtenParts] at h

theorem eq_of_pixels_mem_writtenParts {i : Instr} (h : Part.pixels ∈ writtenParts i) :
    i = .op00E0 ∨ ∃ x y n, i = .opDXYN x y n := by
  cases i
  case op00E0 => exact .inl rfl
  case opDXYN x y n => exact .inr ⟨x, y, n, rfl⟩
  all_goals simp [writtenParts] at h

theorem eq_of_stack_mem_writtenParts {i : Instr} (h : Part.stack ∈ writtenParts i) :
    i = .op00EE ∨ ∃ nnn, i = .op2NNN nnn := by
  cases i
  case op00EE => exact .inl rfl
  case op2NNN nnn => exact .inr ⟨nnn, rfl⟩
  all_goals simp [writtenParts] at h

/-- The registers after V0 to V[x] are loaded from `base`, `base + 1`, … (R175). -/
theorem reg_loadFrom_readBytes {s t : State} {m : Memory} {base : Nat} {x : RegNo}
    (h : t.v = loadFrom s.v 0 (m.readBytes base (x.toNat + 1))) (r : RegNo) :
    t.reg r = if r ≤ x then m.read (base + r.toNat) else s.reg r := by
  have hmem : 0 ≤ r.toNat ∧ r.toNat < 0 + (m.readBytes base (x.toNat + 1)).length ↔ r ≤ x := by
    rw [Memory.readBytes_length, BitVec.le_def]
    omega
  simp only [State.reg, h, getElem_loadFrom, hmem]
  refine ite_congr rfl (fun hle => ?_) fun _ => rfl
  have hlt := BitVec.le_def.mp hle
  exact Memory.readBytes_getD m base _ (by omega)

/-! ## The obligations -/

/-- Settles O53: memory is among the written parts of the two stores only. -/
theorem onlyStoresWriteMemory : Obligations.OnlyStoresWriteMemory := by
  unfold Obligations.OnlyStoresWriteMemory
  intro i s t h hFX33 hFX55 a
  have hw : Part.memory ∉ writtenParts i := fun hmem => by
    obtain ⟨x, rfl⟩ | ⟨x, rfl⟩ := eq_of_memory_mem_writtenParts hmem
    · exact hFX33 x rfl
    · exact hFX55 x rfl
  rw [exec_mem_kept h hw]

/-- Settles O54: the pixel buffer is among the written parts of the two display instructions only. -/
theorem onlyDisplayWritesPixels : Obligations.OnlyDisplayWritesPixels := by
  unfold Obligations.OnlyDisplayWritesPixels
  intro i s t h h00E0 hDXYN
  refine exec_pix_kept h fun hpix => ?_
  obtain rfl | ⟨x, y, n, rfl⟩ := eq_of_pixels_mem_writtenParts hpix
  · exact h00E0 rfl
  · exact hDXYN x y n rfl

/-- Settles O55: the stack is among the written parts of the call and the return only. -/
theorem onlyCallAndReturnUseTheStack : Obligations.OnlyCallAndReturnUseTheStack := by
  unfold Obligations.OnlyCallAndReturnUseTheStack
  intro i s t h h00EE h2NNN
  refine exec_stack_kept h fun hstack => ?_
  obtain rfl | ⟨nnn, rfl⟩ := eq_of_stack_mem_writtenParts hstack
  · exact h00EE rfl
  · exact h2NNN nnn rfl

/-- Settles O56: an instruction that writes no register keeps VF, and each of the others writes the one register, or the
block, that it names. -/
theorem onlyFlagWritersTouchVF : Obligations.OnlyFlagWritersTouchVF := by
  unfold Obligations.OnlyFlagWritersTouchVF
  intro i s t h hi
  cases i
  case op8XY4 | op8XY5 | op8XY6 | op8XY7 | op8XYE | opDXYN => exact hi.elim
  case op6XNN | op7XNN | op8XY0 | op8XY1 | op8XY2 | op8XY3 | opCXNN | opFX07 =>
    cases h
    exact State.reg_setReg_other s _ (Ne.symm hi)
  case opFX0A x =>
    cases hkey : s.env.inputs.keyLatest
    · rw [execFX0A_none hkey] at h; cases h; rfl
    · rw [execFX0A_some hkey] at h; cases h; exact State.reg_setReg_other s _ (Ne.symm hi)
  case opFX1E x =>
    cases h
    have hquirk : s.quirk.addToIndexOverflow = false := hi
    exact State.reg_congr (if_neg (by rw [hquirk]; exact Bool.false_ne_true)) _
  case opFX65 x =>
    cases hc : checkRead s.index.toNat (x.toNat + 1)
    · rw [execFX65_ok hc] at h
      cases h
      have hbelow : ¬ (0xF : RegNo) ≤ x := fun hle => hi (by bv_omega)
      exact (reg_loadFrom_readBytes rfl _).trans (if_neg hbelow)
    · rw [execFX65_fault hc] at h
      cases h
      rfl
  all_goals exact State.reg_congr (exec_v_kept h (by simp [writtenParts])) _

/-- Settles O57: the state after the fault is `raiseIn` of the state before. -/
theorem faultsArePrecise : Obligations.FaultsArePrecise := by
  unfold Obligations.FaultsArePrecise
  intro i s t hrun h hhalt
  obtain ⟨k, -, rfl⟩ := exec_halts h hrun hhalt
  exact ⟨k, rfl⟩

/-- Settles O58: the raised fault is one of the list, and the record holds its kind. -/
theorem faultsAreTheListedOnes : Obligations.FaultsAreTheListedOnes := by
  unfold Obligations.FaultsAreTheListedOnes
  intro i s t hrun h hhalt
  obtain ⟨k, hlisted, rfl⟩ := exec_halts h hrun hhalt
  refine ⟨_, State.fault_raiseIn s i k, ?_⟩
  cases i <;> exact hlisted

end Sys2Proof.Machine

/-! PROOFS of the whole-machine rules: the invariant every step keeps, and what only a reset can change. -/

namespace Sys2Proof.Machine

/-! ## The invariant through the parts of a step -/

/-- R37: nothing is listed in memory, PC and the stack hold 0, and no fault is recorded. -/
theorem inv_reset_with (q : Quirk) (e : Env) : Inv { State.reset with quirk := q, env := e } where
  memWf := Memory.wf_nil
  fontIntact := fun _ hc => absurd hc List.not_mem_nil
  pcRange := Nat.zero_le _
  returnRange := fun k => by
    change (State.reset.stack[k]).toNat ≤ 0x1000
    rw [State.stack_reset_getElem]
    exact Nat.zero_le _
  haltFault := rfl
  loadRunning := fun _ => rfl

theorem Inv.dropEvent {s : State} (hi : Inv s) : Inv s.dropEvent :=
  { hi with loadRunning := by rw [State.loadable_dropEvent]; exact hi.loadRunning }

theorem Inv.begin {s : State} (hi : Inv s) (signals : Inputs) : Inv (s.begin signals) :=
  { hi with loadRunning := nofun }

theorem Inv.tick {s : State} (hi : Inv s) : Inv s.tick := { hi with }

theorem Inv.complete {s : State} (hi : Inv s) : Inv s.complete := { hi with }

/-- A raise needs the load permission to be gone, since it halts the machine. -/
theorem Inv.raise {s : State} (hi : Inv s) (hl : s.env.loadable = false) (k : FaultKind) (a : Word)
    (w : Option Word) : Inv (s.raise k a w) :=
  { hi with
    haltFault := rfl
    loadRunning := fun h => absurd (hl.symm.trans h) Bool.false_ne_true }

/-- A fetch in memory leaves `PC` at most 0x1000 (R24). -/
theorem toNat_pc_add_two {p : Word} (hp : p.toNat ≤ 0xFFE) : (p + 2).toNat = p.toNat + 2 := by
  bv_omega

theorem Inv.advance {s : State} (hi : Inv s) (hp : s.pc.toNat ≤ 0xFFE) : Inv s.advance :=
  { hi with
    pcRange := by
      rw [State.pc_advance, toNat_pc_add_two hp]
      omega }

/-! ## The invariant through the execute stage -/

section
variable {i : Instr} {s t : State}

/-- A store inside memory and outside the font table keeps the canonical form and the table (R67, R68). -/
theorem writeBytes_keeps_memory {m : Memory} (hwf : m.wf) (hfont : m.fontIntact) {base : Nat} {vs : List Byte}
    {n : Nat} (hlen : vs.length = n + 1) (hc : checkWrite base (n + 1) = none) :
    (m.writeBytes base vs).wf ∧ (m.writeBytes base vs).fontIntact := by
  obtain ⟨hrange, htable⟩ := checkWrite_eq_none.mp hc
  exact ⟨Memory.writeBytes_wf hwf base vs (by omega), Memory.writeBytes_fontIntact hfont base vs (by omega)⟩

theorem exec_keeps_memory (h : exec i s = .next t) (hwf : s.mem.wf) (hfont : s.mem.fontIntact) :
    t.mem.wf ∧ t.mem.fontIntact := by
  by_cases hw : Part.memory ∈ writtenParts i
  · obtain ⟨x, rfl⟩ | ⟨x, rfl⟩ := eq_of_memory_mem_writtenParts hw
    · cases hc : checkWrite s.index.toNat 3
      · rw [execFX33_ok hc] at h
        cases h
        exact writeBytes_keeps_memory hwf hfont rfl hc
      · rw [execFX33_fault hc] at h
        cases h
        exact ⟨hwf, hfont⟩
    · cases hc : checkWrite s.index.toNat (x.toNat + 1)
      · rw [execFX55_ok hc] at h
        cases h
        exact writeBytes_keeps_memory hwf hfont (State.regsTo_length s x) hc
      · rw [execFX55_fault hc] at h
        cases h
        exact ⟨hwf, hfont⟩
  · rw [exec_mem_kept h hw]
    exact ⟨hwf, hfont⟩

/-- The only address pushed is `PC` (R125). -/
theorem exec_keeps_returnRange (h : exec i s = .next t) (hp : s.pc.toNat ≤ 0x1000)
    (hret : ∀ k : Fin 16, (s.stack[k]).toNat ≤ 0x1000) (k : Fin 16) : (t.stack[k]).toNat ≤ 0x1000 := by
  by_cases hw : Part.stack ∈ writtenParts i
  · obtain rfl | ⟨nnn, rfl⟩ := eq_of_stack_mem_writtenParts hw
    · by_cases hempty : s.spFree.val = 16
      · rw [exec00EE_empty hempty] at h; cases h; exact hret k
      · rw [exec00EE_ok hempty] at h; cases h; exact hret k
    · by_cases hfull : s.spFree.val = 0
      · rw [exec2NNN_full hfull] at h; cases h; exact hret k
      · rw [exec2NNN_ok hfull] at h
        cases h
        simp only [Fin.getElem_fin, Vector.getElem_set]
        split
        · exact hp
        · exact hret k
  · rw [(exec_stack_kept h hw).1]
    exact hret k

theorem toNat_pc_skipIf_le (hp : s.pc.toNat ≤ 0x1000) (c : Bool) : (s.skipIf c).pc.toNat ≤ 0x10FE := by
  rw [State.pc_skipIf]
  split
  · bv_omega
  · omega

theorem toNat_zextAddr_le (nnn : Addr12) : (zextAddr nnn).toNat ≤ 0x10FE := by
  have hlt := nnn.isLt
  rw [toNat_zextAddr]
  omega

/-- `PC` after the execute stage: a skip adds 2, a jump goes to at most 0xFFF + 0xFF, a return goes to a return address,
and a key wait goes back to the instruction (R24). -/
theorem exec_pcRange (h : exec i s = .next t) (hlo : 2 ≤ s.pc.toNat) (hp : s.pc.toNat ≤ 0x1000)
    (hret : ∀ k : Fin 16, (s.stack[k]).toNat ≤ 0x1000) : t.pc.toNat ≤ 0x10FE := by
  cases i
  case op3XNN | op4XNN | op5XY0 | op9XY0 => cases h; exact toNat_pc_skipIf_le hp _
  case op1NNN nnn => cases h; exact toNat_zextAddr_le nnn
  case opBNNN nnn =>
    cases h
    have hnnn := nnn.isLt
    have hoff := (s.jumpOffset nnn).isLt
    change (zextAddr nnn + zextByte (s.jumpOffset nnn)).toNat ≤ 0x10FE
    rw [toNat_zextAddr_add_zextByte]
    omega
  case op00EE =>
    by_cases hempty : s.spFree.val = 16
    · rw [exec00EE_empty hempty] at h; cases h; exact hp.trans (by decide)
    · rw [exec00EE_ok hempty] at h
      cases h
      exact (hret ⟨s.spFree.val, by omega⟩).trans (by decide)
  case op2NNN nnn =>
    by_cases hfull : s.spFree.val = 0
    · rw [exec2NNN_full hfull] at h; cases h; exact hp.trans (by decide)
    · rw [exec2NNN_ok hfull] at h; cases h; exact toNat_zextAddr_le nnn
  case opEX9E x =>
    cases hk : keyDigit (s.reg x)
    · rw [execEX9E_fault hk] at h; cases h; exact hp.trans (by decide)
    · rw [execEX9E_ok hk] at h; cases h; exact toNat_pc_skipIf_le hp _
  case opEXA1 x =>
    cases hk : keyDigit (s.reg x)
    · rw [execEXA1_fault hk] at h; cases h; exact hp.trans (by decide)
    · rw [execEXA1_ok hk] at h; cases h; exact toNat_pc_skipIf_le hp _
  case opFX0A x =>
    cases hkey : s.env.inputs.keyLatest
    · rw [execFX0A_none hkey] at h
      cases h
      change (s.pc - 2).toNat ≤ 0x10FE
      bv_omega
    · rw [execFX0A_some hkey] at h; cases h; exact hp.trans (by decide)
  all_goals
    rw [exec_pc_kept h (by simp [writtenParts])]
    exact hp.trans (by decide)

/-- A completed instruction keeps HALT and FAULT, and a fault writes both (R33). -/
theorem exec_haltFault (h : exec i s = .next t) (hs : s.halt = s.fault.isSome) : t.halt = t.fault.isSome := by
  obtain ⟨-, hhalt, hfault, -, -⟩ | ⟨k, rfl⟩ := exec_cases h
  · rw [hhalt, hfault, hs]
  · rfl

theorem Inv.exec (hi : Inv s) (h : exec i s = .next t) (hlo : 2 ≤ s.pc.toNat) (hp : s.pc.toNat ≤ 0x1000)
    (hl : s.env.loadable = false) : Inv t := by
  obtain ⟨hwf, hfont⟩ := exec_keeps_memory h hi.memWf hi.fontIntact
  exact {
    memWf := hwf
    fontIntact := hfont
    pcRange := exec_pcRange h hlo hp hi.returnRange
    returnRange := exec_keeps_returnRange h hp hi.returnRange
    haltFault := exec_haltFault h hi.haltFault
    loadRunning := fun hload => by
      rw [exec_env h, hl] at hload
      cases hload }

/-! ## The invariant through the events -/

theorem Inv.cycle (hi : Inv s) (hl : s.env.loadable = false) (h : cycle s = .next t) : Inv t := by
  obtain ⟨-, rfl⟩ | ⟨hp, ⟨r, -, rfl⟩ | ⟨i, u, -, hu, rfl⟩⟩ := cycle_cases h
  · exact hi.raise hl _ _ _
  · exact (hi.advance hp).raise hl _ _ _
  · have hpc : s.advance.pc.toNat = s.pc.toNat + 2 := toNat_pc_add_two hp
    exact ((hi.advance hp).exec hu (by omega) (by omega) hl).complete

/-- The image lies above the font table and inside memory (R261). -/
theorem Inv.hostLoad (hi : Inv s) (image : Option (List Byte)) : Inv (s.hostLoad image) := by
  by_cases hfits : ∃ bytes, image = some bytes ∧ imageFits bytes = true
  · obtain ⟨bytes, rfl, hfit⟩ := hfits
    have hlen : bytes.length ≤ 3584 := of_decide_eq_true hfit
    rw [State.hostLoad_fits hfit]
    exact { hi with
      memWf := Memory.writeBytes_wf hi.memWf _ _ (by omega)
      fontIntact := Memory.writeBytes_fontIntact hi.fontIntact _ _ (by omega)
      pcRange := show (0x0200 : Word).toNat ≤ 0x10FE by decide
      loadRunning := nofun }
  · rw [State.hostLoad_fails fun bytes hbytes => Bool.eq_false_iff.mpr fun hfit => hfits ⟨bytes, hbytes, hfit⟩]
    have hlate : Inv { s with env := { s.env with loadable := false } } := { hi with loadRunning := nofun }
    exact hlate.raise rfl _ _ _

end

/-! ## The obligations -/

/-- Settles O49: each kind of step keeps the invariant. -/
theorem everyStepKeepsTheInvariant : Obligations.EveryStepKeepsTheInvariant := by
  unfold Obligations.EveryStepKeepsTheInvariant
  intro s t hi h
  obtain ⟨signals, -, -, hcycle⟩ | ⟨-, -, rfl⟩ | ⟨q, -, rfl⟩ | ⟨image, -, -, rfl⟩ := step_cases h
  · exact (hi.dropEvent.begin signals).cycle rfl hcycle
  · exact hi.dropEvent.tick
  · exact inv_reset_with q _
  · exact hi.dropEvent.hostLoad image

/-- Settles O50: it is the case of the reset with `Config.quirkIn` and the initial surroundings. -/
theorem resetMeetsTheInvariant : Obligations.ResetMeetsTheInvariant := by
  unfold Obligations.ResetMeetsTheInvariant
  exact inv_reset_with Config.quirkIn State.reset.env

/-- Settles O51: after the step nothing of the font table is listed, so it reads as FONT. -/
theorem fontTableNeverChanges : Obligations.FontTableNeverChanges := by
  unfold Obligations.FontTableNeverChanges
  intro s t hi h k
  exact Memory.read_font (everyStepKeepsTheInvariant s t hi h).fontIntact k

/-! ## QUIRK and HALT -/

theorem exec_quirk {i : Instr} {s t : State} (h : exec i s = .next t) : t.quirk = s.quirk := by
  obtain ⟨hquirk, -⟩ | ⟨k, rfl⟩ := exec_cases h
  · exact hquirk
  · rfl

theorem cycle_quirk {s t : State} (h : cycle s = .next t) : t.quirk = s.quirk := by
  obtain ⟨-, rfl⟩ | ⟨-, ⟨r, -, rfl⟩ | ⟨i, u, -, hu, rfl⟩⟩ := cycle_cases h
  · rfl
  · rfl
  · exact (exec_quirk hu :)

theorem State.quirk_hostLoad (s : State) (image : Option (List Byte)) : (s.hostLoad image).quirk = s.quirk := by
  simp only [State.hostLoad]
  split
  · rfl
  · split <;> rfl

/-- Settles O52: a cycle, a tick and a load keep QUIRK. -/
theorem quirkChangesOnlyAtReset : Obligations.QuirkChangesOnlyAtReset := by
  unfold Obligations.QuirkChangesOnlyAtReset
  intro s t h hnot
  obtain ⟨signals, -, -, hcycle⟩ | ⟨-, -, rfl⟩ | ⟨q, hreset, -⟩ | ⟨image, -, -, rfl⟩ := step_cases h
  · exact (cycle_quirk hcycle :)
  · rfl
  · exact absurd hreset (hnot q)
  · exact State.quirk_hostLoad _ image

/-- Settles O12: an instruction keeps HALT and FAULT or sets them, and of the four kinds of step only the reset does not
need a running machine. -/
theorem onlyResetLeavesHalt : Obligations.OnlyResetLeavesHalt := by
  unfold Obligations.OnlyResetLeavesHalt
  refine ⟨fun i s t h => ?instruction, fun s signals hhalt hevent => ?noCycle, fun s t hi hhalt h => ?onlyReset⟩
  case instruction =>
    obtain ⟨-, hhalt, hfault, -, -⟩ | ⟨k, rfl⟩ := exec_cases h
    · rw [hhalt, hfault]
      exact ⟨id, id⟩
    · exact ⟨fun _ => rfl, fun _ => rfl⟩
  case noCycle => exact step_halted hhalt (.inr ⟨signals, hevent⟩)
  case onlyReset =>
    have hrunning : s.halt ≠ false := ne_false_of_eq_true hhalt
    obtain ⟨-, -, hrun, -⟩ | ⟨-, hrun, -⟩ | ⟨q, hreset, rfl⟩ | ⟨-, -, hload, -⟩ := step_cases h
    · exact absurd hrun hrunning
    · exact absurd hrun hrunning
    · exact ⟨q, hreset, isResetState_hostReset _ q⟩
    · exact absurd (hi.loadRunning hload) hrunning

end Sys2Proof.Machine

/-! PROOFS of 20_memory.md section 3, 60_exceptions.md and 70_reset_and_hazards.md: one cycle, one tick, one load. -/

namespace Sys2Proof.Machine

/-! ## Writing memory or the surroundings alone -/

/-- The frame of a store (R173, R174). -/
theorem unchanged_setMem (s : State) (m : Memory) : Unchanged [.memory] s { s with mem := m } := by
  intro part hpart
  have hsame := Part.same_refl s part
  cases part
  case memory => exact absurd (List.mem_singleton_self Part.memory) hpart
  all_goals exact hsame

/-- The model's own surroundings hold no state of the machine (log 3, log 4, log 5). -/
theorem unchanged_setEnv (s : State) (e : Env) : Unchanged [.env] s { s with env := e } := by
  intro part hpart
  have hsame := Part.same_refl s part
  cases part
  case env => exact absurd (List.mem_singleton_self Part.env) hpart
  all_goals exact hsame

/-- Byte `j` of a sequence of writes is read back at its place. -/
theorem Memory.read_writeBytes_add {m : Memory} (h : m.wf) {base : Nat} {vs : List Byte}
    (hr : base + vs.length ≤ 0x1000) {j : Nat} (hj : j < vs.length) :
    (m.writeBytes base vs).read (base + j) = vs.getD j 0 := by
  rw [Memory.read_writeBytes h base vs hr, if_pos (by omega), Nat.add_sub_cancel_left]

/-- A state whose memory is a sequence of writes away keeps every byte elsewhere. -/
theorem memKept_of_mem_eq_writeBytes {s t : State} (hwf : s.mem.wf) {base : Nat} {vs : List Byte}
    (hr : base + vs.length ≤ 0x1000) (ht : t.mem = s.mem.writeBytes base vs) : MemKept base vs.length s t := by
  intro a ha
  rw [ht, Memory.read_writeBytes hwf base vs hr, if_neg (by omega)]

/-! ## The cycle of a running machine (R120) -/

theorem exec_tone {i : Instr} {s t : State} (h : exec i s = .next t) : t.tone = s.tone := by
  obtain ⟨-, -, -, htone, -⟩ | ⟨k, rfl⟩ := exec_cases h
  · exact htone
  · rfl

/-- A faulting cycle keeps TONE, and a completed one writes it (R235). -/
theorem cycle_tone {s t : State} (h : cycle s = .next t) : t.tone = if t.halt then s.tone else t.st != 0 := by
  obtain ⟨-, rfl⟩ | ⟨-, ⟨r, -, rfl⟩ | ⟨i, u, -, hu, rfl⟩⟩ := cycle_cases h
  · rfl
  · rfl
  · have htone : u.tone = s.tone := (exec_tone hu :)
    rw [State.tone_complete, htone]
    rfl

/-- Settles O7: the fetched word decodes, so the cycle is the execution and then the end of the cycle. -/
theorem stepRunsDecodedInstruction : Obligations.StepRunsDecodedInstruction := by
  unfold Obligations.StepRunsDecodedInstruction
  intro s signals i hrun hevent hpc hdecode
  obtain ⟨t, ht⟩ := exec_answers i (s.dropEvent.begin signals).advance
  refine ⟨t, ht, ?step⟩
  case step => calc
    step s = cycle (s.dropEvent.begin signals) := step_cycle hevent hrun
    _ = runWord _ (s.dropEvent.begin signals) := cycle_fetched hpc
    _ = finishCycle (exec i (s.dropEvent.begin signals).advance) := runWord_ok hdecode _
    _ = .next t.complete := by rw [ht]; rfl

/-- Settles O8: the range is in memory, and the two bytes of the word are the two bytes read. -/
theorem fetchIsBigEndian : Obligations.FetchIsBigEndian := by
  unfold Obligations.FetchIsBigEndian
  intro m a ha
  exact ⟨_, fetchWord_ok m ha, highByte_wordOfBytes _ _, lowByte_wordOfBytes _ _⟩

/-- Settles O10: the cycle ends in the raise of the fetch, before `PC` advances. -/
theorem fetchAboveMemoryHalts : Obligations.FetchAboveMemoryHalts := by
  unfold Obligations.FetchAboveMemoryHalts
  intro s signals hrun hevent hpc
  have hstep := calc
    step s = cycle (s.dropEvent.begin signals) := step_cycle hevent hrun
    _ = .next _ := cycle_fetch_fault hpc
  refine ⟨_, hstep, rfl, rfl, rfl, ?frame⟩
  case frame =>
    exact ((unchanged_dropEvent_begin s signals).trans (unchanged_raise _ _ _ _)).mono (by decide)

/-- Settles O11: it is what `runEvent` answers to both events of a halted machine. -/
theorem haltedMachineHasNoStep : Obligations.HaltedMachineHasNoStep := by
  unfold Obligations.HaltedMachineHasNoStep
  exact fun _ => step_halted

/-- Settles O13: it is `cycle_tone` for a cycle, and a tick writes the timers only. -/
theorem toneFollowsSoundTimer : Obligations.ToneFollowsSoundTimer := by
  unfold Obligations.ToneFollowsSoundTimer
  refine ⟨fun s t signals hrun hevent h => ?cycle, fun s t hevent h => ?tick⟩
  case cycle =>
    rw [step_cycle hevent hrun] at h
    exact (cycle_tone h :)
  case tick =>
    cases hhalt : s.halt
    · rw [step_tick hevent hhalt] at h
      cases h
      rfl
    · rw [step_halted hhalt (.inl hevent)] at h
      cases h

/-- Settles O21: the jump writes to `PC` the value it had before the fetch. -/
theorem selfJumpChangesNothing : Obligations.SelfJumpChangesNothing := by
  unfold Obligations.SelfJumpChangesNothing
  intro s signals nnn hrun hevent hself hpc hword
  have hdecode := decodeEncodeRoundTrip (.op1NNN nnn)
  rw [← hword] at hdecode
  obtain ⟨t, hexec, hstep⟩ := stepRunsDecodedInstruction s signals _ hrun hevent hpc hdecode
  have ht : t = { s with env := { s.dropEvent.env with inputs := signals, loadable := false } } := by
    cases hexec
    rw [hself]
    rfl
  subst ht
  refine ⟨_, hstep, ?tone, ?frame⟩
  case tone => exact if_neg (ne_true_of_eq_false hrun)
  case frame => exact ((unchanged_setEnv s _).trans (unchanged_complete _)).mono (by decide)

/-! ## Ticks and loads -/

/-- Settles O14: each timer counts down, and a tick writes no other part. -/
theorem tickCountsDown : Obligations.TickCountsDown := by
  unfold Obligations.TickCountsDown
  intro s hevent
  refine ⟨fun hhalt => step_halted hhalt (.inl hevent), fun hrun => ?running⟩
  case running =>
    refine ⟨s.dropEvent.tick, step_tick hevent hrun, countDown_toNat _, countDown_toNat _, ?frame⟩
    case frame =>
      have henv := unchanged_setEnv s s.dropEvent.env
      have htimers := (unchanged_setDt s.dropEvent (countDown s.dt)).trans (unchanged_setSt _ (countDown s.st))
      exact (henv.trans htimers).mono (by decide)

/-- Settles O17: the image fits in memory above 0x200, and byte `k` of it is the byte written at 0x200 + k. -/
theorem loadPlacesTheImage : Obligations.LoadPlacesTheImage := by
  unfold Obligations.LoadPlacesTheImage
  intro s image hwf hload hevent hlen
  have hroom : 0x200 + image.length ≤ 0x1000 := by omega
  have hstep := calc
    step s = .next (s.dropEvent.hostLoad (some image)) := step_load hevent hload
    _ = .next _ := congrArg _ (State.hostLoad_fits (decide_eq_true hlen))
  refine ⟨_, hstep, rfl, fun k hk => ?image, memKept_of_mem_eq_writeBytes hwf hroom rfl, ?frame⟩
  case image => exact (Memory.read_writeBytes_add hwf hroom hk).trans (List.getD_eq_getElem _ _ hk)
  case frame =>
    have henv := unchanged_setEnv s { s.dropEvent.env with loadable := false }
    exact ((henv.trans (unchanged_setMem _ _)).trans (unchanged_setPc _ 0x0200)).mono (by decide)

/-- Settles O18: the load ends in the raise, whose record holds `PC`. -/
theorem failedLoadHalts : Obligations.FailedLoadHalts := by
  unfold Obligations.FailedLoadHalts
  intro s image hload hevent hlong
  have hfails (bytes : List Byte) (h : image = some bytes) : imageFits bytes = false :=
    decide_eq_false (not_le.mpr (hlong bytes h))
  have hstep := calc
    step s = .next (s.dropEvent.hostLoad image) := step_load hevent hload
    _ = .next _ := congrArg _ (State.hostLoad_fails hfails)
  refine ⟨_, hstep, rfl, rfl, rfl, ?frame⟩
  case frame =>
    have henv := unchanged_setEnv s { s.dropEvent.env with loadable := false }
    exact (henv.trans (unchanged_raise _ _ _ _)).mono (by decide)

/-- Settles O19: what each kind of step does to the permission is part of what it does to the surroundings. -/
theorem lateLoadIsRefused : Obligations.LateLoadIsRefused := by
  unfold Obligations.LateLoadIsRefused
  refine ⟨fun s image hlate hevent => step_load_refused hevent hlate, fun s t h hreset htick => ?ended,
    fun s t h hevent => ?kept, rfl, fun s t q h hevent => ?given⟩
  case ended =>
    obtain ⟨signals, -, henv⟩ | ⟨he, -⟩ | ⟨q, he, -⟩ | ⟨image, -, henv⟩ := step_env h
    · rw [henv]
    · exact absurd he htick
    · exact absurd he (hreset q)
    · rw [henv]
  case kept =>
    obtain ⟨signals, he, -⟩ | ⟨-, henv⟩ | ⟨q, he, -⟩ | ⟨image, he, -⟩ := step_env h
    · cases hevent.symm.trans he
    · rw [henv, State.loadable_dropEvent]
    · cases hevent.symm.trans he
    · cases hevent.symm.trans he
  case given =>
    obtain ⟨signals, he, -⟩ | ⟨he, -⟩ | ⟨q, -, henv⟩ | ⟨image, he, -⟩ := step_env h
    · cases hevent.symm.trans he
    · cases hevent.symm.trans he
    · rw [henv]
    · cases hevent.symm.trans he

/-- Settles O20: nothing is listed in memory, so the word fetched at 0x0000 is 0x0000, which is not valid. -/
theorem runWithoutLoadHalts : Obligations.RunWithoutLoadHalts := by
  unfold Obligations.RunWithoutLoadHalts
  obtain ⟨t, hstep, hhalt, hfault, -, hpc, -⟩ :=
    invalidWordHalts State.reset (Config.inputs 0) rfl rfl (by decide) rfl
  exact ⟨t, hstep, hhalt, hpc, hfault⟩

/-- Settles O59: every kind of step starts from the state without the event and leaves the schedule alone. -/
theorem stepTakesOneEvent : Obligations.StepTakesOneEvent := by
  unfold Obligations.StepTakesOneEvent
  refine ⟨fun s e es h => State.nextEvent_cons h, fun s t h => ?_⟩
  obtain ⟨signals, -, henv⟩ | ⟨-, henv⟩ | ⟨q, -, henv⟩ | ⟨image, -, henv⟩ := step_env h
  all_goals
    rw [henv]
    exact State.schedule_dropEvent s

end Sys2Proof.Machine

/-! PROOFS of 40_control_flow.md: the call stack. -/

namespace Sys2Proof.Machine

/-- The frame of the stack's own part of a call or a return (R26, R27). -/
theorem unchanged_setStack (s : State) (stack : Vector Word 16) (spFree : Fin 17) :
    Unchanged [.stack] s { s with stack := stack, spFree := spFree } := by
  intro part hpart
  have hsame := Part.same_refl s part
  cases part
  case stack => exact absurd (List.mem_singleton_self Part.stack) hpart
  all_goals exact hsame

/-- The frame of a call or a return (R123, R125). -/
theorem unchanged_setStack_setPc (s : State) (stack : Vector Word 16) (spFree : Fin 17) (p : Word) :
    Unchanged [.pc, .stack] s { s with stack := stack, spFree := spFree, pc := p } :=
  ((unchanged_setStack s stack spFree).trans (unchanged_setPc _ p)).mono (by decide)

theorem sp_eq (s : State) : s.sp = s.spFree.val - 1 := rfl

/-- Settles O22: with 16 free entries the pop raises, and with fewer it reads the entry above SP. -/
theorem returnPopsTheStack : Obligations.ReturnPopsTheStack := by
  unfold Obligations.ReturnPopsTheStack
  intro s
  refine ⟨fun hsp => ?empty, fun hfree => ?pop⟩
  case empty =>
    rw [sp_eq] at hsp
    exact raisesOnly_of_exec_eq_raiseIn (exec00EE_empty (by omega))
  case pop =>
    refine ⟨_, exec00EE_ok (Nat.ne_of_lt hfree), rfl, ?_, rfl, unchanged_setStack_setPc s _ _ _⟩
    simp only [sp_eq]
    omega

/-- Settles O24: with no free entry the push raises, and with one it writes the entry at SP. -/
theorem callPushesTheReturnAddress : Obligations.CallPushesTheReturnAddress := by
  unfold Obligations.CallPushesTheReturnAddress
  intro nnn s
  refine ⟨fun hsp => ?full, fun hsp => ?push⟩
  case full =>
    rw [sp_eq] at hsp
    exact raisesOnly_of_exec_eq_raiseIn (exec2NNN_full (by omega) nnn)
  case push =>
    have hfree : s.spFree.val ≠ 0 := fun h0 => hsp (by rw [sp_eq, h0]; rfl)
    refine ⟨_, exec2NNN_ok hfree nnn, toNat_zextAddr nnn, ?sp, fun k => ?entry, unchanged_setStack_setPc s _ _ _⟩
    case sp =>
      simp only [sp_eq]
      omega
    case entry =>
      have hnewest : s.spFree.val - 1 = k.val ↔ (k.val : Int) = s.sp := by
        rw [sp_eq]
        omega
      simp only [Fin.getElem_fin, Vector.getElem_set, hnewest]

/-- Settles O25: the entry pushed is the newest one, so the return pops it, and the depth is that before the call. -/
theorem returnUndoesCall : Obligations.ReturnUndoesCall := by
  unfold Obligations.ReturnUndoesCall
  intro nnn s t hcall hrun hcompleted
  by_cases hfree : s.spFree.val = 0
  · rw [exec2NNN_full hfree] at hcall
    cases hcall
    cases hcompleted
  · rw [exec2NNN_ok hfree] at hcall
    have hdepth : t.spFree.val ≠ 16 := by
      cases hcall
      exact show s.spFree.val - 1 ≠ 16 by omega
    have hreturn := exec00EE_ok hdepth
    cases hcall
    simp only [Vector.getElem_set_self] at hreturn
    refine ⟨_, hreturn, rfl, ?sp, unchanged_setStack s _ _⟩
    case sp =>
      simp only [sp_eq]
      omega

end Sys2Proof.Machine

/-! PROOFS of 41_load_alu.md: the flag writers and the random byte. -/

namespace Sys2Proof.Machine

/-- A meaning that answers `writeFlagged` writes the result and the flag it is given (R141). -/
theorem writesFlagged_of_exec_eq_writeFlagged {i : Instr} {s : State} {x : RegNo} {a : AluResult} {value : Nat}
    {flag : Prop} [Decidable flag] (hexec : exec i s = .next (s.writeFlagged x a)) (hvalue : a.value.toNat = value)
    (hflag : a.flag = decide flag) : WritesFlagged i x value flag s := by
  refine ⟨s.writeFlagged x a, hexec, ?result, fun hx => ?flag, fun r hr => ?others, unchanged_setV s _⟩
  case result => rw [State.reg_writeFlagged, if_pos rfl, hvalue]
  case flag =>
    rw [State.reg_writeFlagged, if_neg (Ne.symm hx), if_pos rfl, hflag]
    simp [flagByte]
  case others =>
    obtain ⟨hrx, hrF⟩ := not_or.mp hr
    rw [State.reg_writeFlagged, if_neg hrx, if_neg hrF]

theorem State.toNat_shiftOperand (s : State) (x y : RegNo) :
    (s.shiftOperand x y).toNat = if s.quirk.shiftUseVY then (s.reg y).toNat else (s.reg x).toNat :=
  apply_ite BitVec.toNat _ _ _

/-- Settles O31: the meaning is a `writeFlagged` of the sum and its carry. -/
theorem addSetsCarry : Obligations.AddSetsCarry := by
  unfold Obligations.AddSetsCarry
  intro x y s
  exact ⟨rfl, writesFlagged_of_exec_eq_writeFlagged rfl (addCarry_value _ _) (addCarry_flag _ _)⟩

/-- Settles O32: both meanings are a `writeFlagged` of a difference and the comparison of its operands. -/
theorem subtractSetsGreater : Obligations.SubtractSetsGreater := by
  unfold Obligations.SubtractSetsGreater
  intro x y s
  exact ⟨rfl, rfl, writesFlagged_of_exec_eq_writeFlagged rfl (subGreater_value _ _) (subGreater_flag _ _),
    writesFlagged_of_exec_eq_writeFlagged rfl (subGreater_value _ _) (subGreater_flag _ _)⟩

/-- Settles O33: both meanings are a `writeFlagged` of the shifted operand and the bit shifted out. -/
theorem shiftsMoveOneBit : Obligations.ShiftsMoveOneBit := by
  unfold Obligations.ShiftsMoveOneBit
  intro x y s t ht
  rw [← State.toNat_shiftOperand] at ht
  subst ht
  exact ⟨rfl, rfl, writesFlagged_of_exec_eq_writeFlagged rfl (shiftRight_value _) (shiftRight_flag _),
    writesFlagged_of_exec_eq_writeFlagged rfl (shiftLeft_value _) (shiftLeft_flag _)⟩

/-- Settles O34: the meaning is a `setReg` of the masked sample, and the complement of the mask leaves nothing of it. -/
theorem randomIsMasked : Obligations.RandomIsMasked := by
  unfold Obligations.RandomIsMasked
  intro x nn s
  refine ⟨rfl, writesReg_of_exec_eq_setReg rfl, fun t h => ?masked⟩
  case masked =>
    cases h
    rw [State.reg_setReg_same, BitVec.and_assoc, BitVec.and_not_self]
    exact BitVec.and_zero

end Sys2Proof.Machine

/-! PROOFS of 42_index_memory.md: the index sum and the memory instructions. -/

namespace Sys2Proof.Machine

/-- The frame of FX1E and FX65 (R171, R175). -/
theorem unchanged_setV_setIndex (s : State) (v : Vector Byte 16) (w : Word) :
    Unchanged [.regs, .index] s { s with v := v, index := w } :=
  (unchanged_setV s v).trans (unchanged_setIndex _ w)

theorem toNat_add_zextByte (w : Word) (b : Byte) : (w + zextByte b).toNat = (w.toNat + b.toNat) % 65536 := by
  rw [BitVec.toNat_add, toNat_zextByte]

/-- Settles O36: the registers are those after the flag is written to VF under the quirk, and the old ones without. -/
theorem indexAddsRegister : Obligations.IndexAddsRegister := by
  unfold Obligations.IndexAddsRegister
  intro x s
  refine ⟨rfl, _, rfl, toNat_add_zextByte _ _, fun hquirk => ?flagged, fun hquirk => ?unflagged, fun r hr => ?others,
    unchanged_setV_setIndex s _ _⟩
  case flagged =>
    refine (State.reg_congr (if_pos hquirk) _).trans ?_
    rw [State.reg_setReg_same]
    simp [flagByte, indexOverflow]
  case unflagged => exact State.reg_congr (if_neg (ne_true_of_eq_false hquirk)) _
  case others =>
    by_cases hquirk : s.quirk.addToIndexOverflow = true
    · exact (State.reg_congr (if_pos hquirk) r).trans (State.reg_setReg_other s _ hr)
    · exact State.reg_congr (if_neg hquirk) r

/-! ## Stores and loads -/

/-- The frame of FX55 (R174). -/
theorem unchanged_setMem_setIndex (s : State) (m : Memory) (w : Word) :
    Unchanged [.memory, .index] s { s with mem := m, index := w } :=
  (unchanged_setMem s m).trans (unchanged_setIndex _ w)

/-- Settles O38: `CheckWrite` decides between the two faults and the store of the three digits. -/
theorem decimalDigitsStored : Obligations.DecimalDigitsStored := by
  unfold Obligations.DecimalDigitsStored
  intro x s
  refine ⟨rfl, fun hrange => ?range, fun hbase hend => ?font, fun hwf hrange htable => ?stored⟩
  case range => exact raisesOnly_of_exec_eq_raiseIn (execFX33_fault (checkWrite_range hrange))
  case font =>
    exact raisesOnly_of_exec_eq_raiseIn (execFX33_fault (checkWrite_font (by omega) hbase hend))
  case stored =>
    have hb := (s.reg x).isLt
    have hroom : s.index.toNat + (decimalDigits (s.reg x)).length ≤ 0x1000 := by
      change s.index.toNat + 3 ≤ 0x1000
      omega
    have hdigit {j : Nat} (hj : j < 3) := congrArg BitVec.toNat (Memory.read_writeBytes_add hwf hroom hj)
    refine ⟨_, execFX33_ok (checkWrite_eq_none.mpr ⟨hrange, htable⟩), (hdigit (j := 0) (by decide)).trans ?_,
      (hdigit (j := 1) (by decide)).trans ?_, (hdigit (j := 2) (by decide)).trans ?_,
      memKept_of_mem_eq_writeBytes hwf hroom rfl, unchanged_setMem s _⟩
    all_goals
      refine (BitVec.toNat_ofNat ..).trans (Nat.mod_eq_of_lt ?_)
      omega

theorem State.regsTo_fits {s : State} {x : RegNo} (hrange : s.index.toNat + x.toNat ≤ 0xFFF) :
    s.index.toNat + (s.regsTo x).length ≤ 0x1000 := by
  rw [State.regsTo_length]
  omega

/-- The byte stored for a register is the register's (R174). -/
theorem read_stored_register {s : State} (hwf : s.mem.wf) {x r : RegNo}
    (hrange : s.index.toNat + x.toNat ≤ 0xFFF) (hr : r ≤ x) :
    (s.mem.writeBytes s.index.toNat (s.regsTo x)).read (s.index.toNat + r.toNat) = s.reg r := by
  have hlt : r.toNat < (s.regsTo x).length := by
    rw [State.regsTo_length]
    exact Nat.lt_succ_of_le (BitVec.le_def.mp hr)
  rw [Memory.read_writeBytes_add hwf (State.regsTo_fits hrange) hlt, State.regsTo_getD s x r hr]

/-- Settles O39: `CheckWrite` decides between the two faults and the store, whose byte `r` is V[r]. -/
theorem registersStored : Obligations.RegistersStored := by
  unfold Obligations.RegistersStored
  intro x s
  refine ⟨rfl, fun hrange => ?range, fun hbase hend => ?font, fun hwf hrange htable => ?stored⟩
  case range => exact raisesOnly_of_exec_eq_raiseIn (execFX55_fault (checkWrite_range hrange))
  case font =>
    exact raisesOnly_of_exec_eq_raiseIn (execFX55_fault (checkWrite_font (by omega) hbase hend))
  case stored =>
    refine ⟨_, execFX55_ok (checkWrite_eq_none.mpr ⟨hrange, htable⟩), fun r hr => ?bytes,
      State.blockIndex_toNat hrange, ?others, unchanged_setMem_setIndex s _ _⟩
    case bytes => exact read_stored_register hwf hrange hr
    case others =>
      rw [← State.regsTo_length s x]
      exact memKept_of_mem_eq_writeBytes hwf (State.regsTo_fits hrange) rfl

/-- Settles O40: `CheckRead` decides between the fault and the load, and the bytes a store left in memory are the
registers' when it was made. -/
theorem registersLoaded : Obligations.RegistersLoaded := by
  unfold Obligations.RegistersLoaded
  intro x s
  refine ⟨rfl, fun hrange => ?range, fun hrange => ?loaded, fun t v hwf hstore hrun hcompleted => ?roundTrip⟩
  case range => exact raisesOnly_of_exec_eq_raiseIn (execFX65_fault (checkRead_fault hrange))
  case loaded =>
    refine ⟨_, execFX65_ok (checkRead_eq_none.mpr hrange), fun r hr => ?bytes, State.blockIndex_toNat hrange,
      fun r hr => ?others, unchanged_setV_setIndex s _ _⟩
    case bytes => exact (reg_loadFrom_readBytes rfl r).trans (if_pos hr)
    case others => exact (reg_loadFrom_readBytes rfl r).trans (if_neg hr)
  case roundTrip =>
    cases hcheck : checkWrite s.index.toNat (x.toNat + 1)
    case some k =>
      rw [execFX55_fault hcheck] at hstore
      cases hstore
      cases hcompleted
    case none =>
      obtain ⟨hrange, -⟩ := checkWrite_eq_none.mp hcheck
      rw [execFX55_ok hcheck] at hstore
      cases hstore
      refine ⟨_, execFX65_ok (checkRead_eq_none.mpr hrange), fun r hr => ?_⟩
      calc
        _ = (s.mem.writeBytes s.index.toNat (s.regsTo x)).read (s.index.toNat + r.toNat) :=
          (reg_loadFrom_readBytes rfl r).trans (if_pos hr)
        _ = s.reg r := read_stored_register hwf hrange hr

end Sys2Proof.Machine

/-! PROOFS of 43_display.md: the draw. -/

namespace Sys2Proof.Machine

/-- A sprite read from memory covers what its rows in memory cover (R192). -/
theorem rowsCover_readBytes (m : Memory) (base n x0 y0 x y : Nat) :
    rowsCover (m.readBytes base n) x0 y0 x y = spriteCovers (fun j => m.read (base + j)) n x0 y0 x y := by
  unfold rowsCover spriteCovers
  rw [Memory.readBytes_length]
  by_cases hy : y - y0 < n
  · simp only [Memory.readBytes_getD m base n hy]
  · have hbelow : ¬ (x0 ≤ x ∧ x < x0 + 8 ∧ y0 ≤ y ∧ y < y0 + n) := by omega
    rw [decide_eq_false hbelow, Bool.false_and, Bool.false_and]

/-- Pixel (cx, cy) is under a set bit of the sprite that DXYN draws in state `s` (R192). -/
def State.drawCovers (s : State) (x y : RegNo) (n : BitVec 4) (cx cy : Nat) : Bool :=
  spriteCovers s.spriteRow n.toNat ((s.reg x).toNat % 64) ((s.reg y).toNat % 32) cx cy

/-- The canvas DXYN leaves in state `s` where the range check passes. -/
def State.drawn (s : State) (x y : RegNo) (n : BitVec 4) : Canvas :=
  composite s.pix (s.originX x) (s.originY y) (s.mem.readBytes s.index.toNat n.toNat)

section
variable (s : State) (x y : RegNo) (n : BitVec 4)

theorem exec_draw (h : n.toNat = 0 ∨ s.index.toNat + n.toNat - 1 ≤ 0xFFF) : exec (.opDXYN x y n) s =
    .next { s.setReg vf (flagByte (s.drawn x y n).collision) with pix := (s.drawn x y n).pix } :=
  execDXYN_ok h

theorem get_drawn {cx cy : Nat} (hcx : cx < 64) (hcy : cy < 32) :
    (s.drawn x y n).pix.get cx cy = (s.drawCovers x y n cx cy ^^ s.pix.get cx cy) := by
  refine (Canvas.get_drawRows ⟨s.pix, false⟩ _ _ _ hcx hcy).trans ?_
  rw [rowsCover_readBytes]
  rfl

theorem collision_drawn : (s.drawn x y n).collision = true ↔
    ∃ cx cy, cx < 64 ∧ cy < 32 ∧ s.drawCovers x y n cx cy = true ∧ s.pix.get cx cy = true := by
  refine (Canvas.collision_drawRows ⟨s.pix, false⟩ _ _ _).trans ((or_iff_right Bool.false_ne_true).trans ?_)
  simp only [rowsCover_readBytes]
  rfl

end

theorem Pixels.get_outside (p : Pixels) {cx cy : Nat} (h : ¬ (cx < 64 ∧ cy < 32)) : p.get cx cy = false :=
  dif_neg h

theorem flagByte_eq_zero_or_one (b : Bool) : flagByte b = 0 ∨ flagByte b = 1 := by
  cases b
  · exact .inl rfl
  · exact .inr rfl

/-- Settles O43: the range check decides between the fault and the draw of the sprite in memory. -/
theorem drawXorsTheSprite : Obligations.DrawXorsTheSprite := by
  unfold Obligations.DrawXorsTheSprite
  intro x y n s
  refine ⟨rfl, fun hpos hrange => ?fault, fun hrange => ?drawn⟩
  case fault => exact raisesOnly_of_exec_eq_raiseIn (execDXYN_fault hpos hrange)
  case drawn =>
    have hVF := State.reg_setReg_same s vf (flagByte (s.drawn x y n).collision)
    refine ⟨_, exec_draw s x y n hrange, fun cx cy hcx hcy => get_drawn s x y n hcx hcy, ?flag, ?collision,
      fun r hr => ?others, (unchanged_setV s _).trans (unchanged_setPix _ _)⟩
    case flag => exact (flagByte_eq_zero_or_one _).imp hVF.trans hVF.trans
    case collision =>
      exact (Eq.congr_left hVF).trans (flagByte_eq_one.trans (collision_drawn s x y n))
    case others => exact State.reg_setReg_other s _ hr

/-- The second draw of the same instruction covers the same pixels, for the first has written VF and the buffer only. -/
theorem drawCovers_after_draw {s t : State} {x y : RegNo} {n : BitVec 4} (hx : x ≠ 0xF) (hy : y ≠ 0xF)
    (hregs : RegsKept (fun r => r = 0xF) s t) (hframe : Unchanged [.regs, .pixels] s t) (cx cy : Nat) :
    t.drawCovers x y n cx cy = s.drawCovers x y n cx cy := by
  have hindex : t.index = s.index := hframe .index (by decide)
  have hmem : ∀ a, t.mem.read a = s.mem.read a := hframe .memory (by decide)
  have hrow : t.spriteRow = s.spriteRow := funext fun j => by rw [State.spriteRow, State.spriteRow, hindex, hmem]
  rw [State.drawCovers, State.drawCovers, hrow, hregs x hx, hregs y hy]

/-- Settles O44: what is XORed twice with the same sprite is as it was. -/
theorem drawTwiceRestoresThePixels : Obligations.DrawTwiceRestoresThePixels := by
  unfold Obligations.DrawTwiceRestoresThePixels
  intro x y n s t u hx hy hrun ht hcompleted hu cx cy
  by_cases hin : cx < 64 ∧ cy < 32
  case neg => rw [Pixels.get_outside _ hin, Pixels.get_outside _ hin]
  case pos =>
    obtain ⟨hcx, hcy⟩ := hin
    by_cases hrange : n.toNat = 0 ∨ s.index.toNat + n.toNat - 1 ≤ 0xFFF
    case neg =>
      rw [execDXYN_fault (by omega) (by omega)] at ht
      cases ht
      cases hcompleted
    case pos =>
      obtain ⟨-, -, hdraw⟩ := drawXorsTheSprite x y n s
      obtain ⟨t', ht', hpix, -, -, hregs, hframe⟩ := hdraw hrange
      cases ht.symm.trans ht'
      have hindex : t.index = s.index := hframe .index (by decide)
      rw [exec_draw t x y n (by rwa [hindex])] at hu
      cases hu
      calc
        _ = (t.drawCovers x y n cx cy ^^ t.pix.get cx cy) := get_drawn t x y n hcx hcy
        _ = (s.drawCovers x y n cx cy ^^ (s.drawCovers x y n cx cy ^^ s.pix.get cx cy)) := by
          rw [drawCovers_after_draw hx hy hregs hframe, hpix cx cy hcx hcy]
          rfl
        _ = s.pix.get cx cy := by
          rw [← Bool.xor_assoc, Bool.xor_self, Bool.false_xor]

end Sys2Proof.Machine

/-! PROOFS of 44_keypad_timers.md: the key skips. -/

namespace Sys2Proof.Machine

theorem keyDigit_of_toNat_eq {b : Byte} {k : Fin 16} (h : b.toNat = k.val) : keyDigit b = .ok k := by
  rw [keyDigit_ok (by omega)]
  exact congrArg _ (Fin.ext h)

/-- Settles O45: a key digit leads to a `skipIf` on whether the key is down, and any other value to the fault. -/
theorem keySkips : Obligations.KeySkips := by
  unfold Obligations.KeySkips
  intro x s
  refine ⟨rfl, rfl, fun k hk => ?digit, fun habove => ?fault⟩
  case digit =>
    have hdigit := keyDigit_of_toNat_eq hk
    exact ⟨skipsIff_of_exec_eq_skipIf (execEX9E_ok hdigit) Iff.rfl,
      skipsIff_of_exec_eq_skipIf (execEXA1_ok hdigit) (Bool.not_eq_true' _).to_iff⟩
  case fault =>
    have hdigit := keyDigit_error habove
    exact ⟨raisesOnly_of_exec_eq_raiseIn (execEX9E_fault hdigit),
      raisesOnly_of_exec_eq_raiseIn (execEXA1_fault hdigit)⟩

/-- A key is down exactly where it is given as down or reported (R34, D18). -/
theorem keyIsDown_iff (i : Inputs) (k : Fin 16) :
    keyIsDown i k = true ↔ i.keyDown[k] = true ∨ i.keyLatest = some k := by
  rw [keyIsDown, Bool.or_eq_true, beq_iff_eq]

/-- Settles O46: a key is down where it is given as down or reported, and nowhere else. -/
theorem reportedKeyIsDown : Obligations.ReportedKeyIsDown := by
  unfold Obligations.ReportedKeyIsDown
  intro i k
  refine ⟨fun hlatest => ?reported, fun hdown => ?given, fun hlatest hdown => ?neither⟩
  case reported => exact (keyIsDown_iff i k).mpr (.inr hlatest)
  case given => exact (keyIsDown_iff i k).mpr (.inl hdown)
  case neither =>
    refine Bool.eq_false_iff.mpr fun h => ?_
    obtain hgiven | hreported := (keyIsDown_iff i k).mp h
    · exact Bool.eq_false_iff.mp hdown hgiven
    · exact hlatest hreported

end Sys2Proof.Machine
